-- ==== Sys2Proof/Word.lean ====
section
/-! DEFINITION. The word type: every register, memory cell and operand is one byte (00_scope.md R6, R7). -/

namespace Sys2Proof

/-- A data value of the core: 8 bits, unsigned, bit 0 the least significant (00_scope.md R6, R7). -/
abbrev Byte := BitVec 8

end Sys2Proof
end

