-- ==== Sys2Proof/Config.lean ====
section
/-! DEFINITION. The parameters of the core (00_scope.md R6) at the values the spec gives them by default. -/

namespace Sys2Proof

/-- The three model parameters of 00_scope.md R6. The spec gives each a default; nothing else is left open. -/
structure Params where
  /-- SUB_DECODES: whether byte 0xA1 decodes as SUB (decision D1). -/
  subDecodes : Bool
  /-- CMP_SIGNED: whether CMP compares two's-complement signed bytes (decision D2). -/
  cmpSigned : Bool
  /-- FUEL: the instruction-count ceiling of a harness, outside the hardware (decision D21). -/
  fuel : Option Nat
  deriving DecidableEq, Repr

/-- The defaults of 00_scope.md R6: SUB decodes, CMP is unsigned, no ceiling. -/
def Config.params : Params := { subDecodes := true, cmpSigned := false, fuel := none }

/-- MEMSIZE: the number of memory cells; addresses are 0 to 255 (00_scope.md R6, 90_conflicts.md C1). -/
def Config.memSize : Nat := 256

/-- NREG: the number of general registers (00_scope.md R6). -/
def Config.nReg : Nat := 8

/-- SP_RESET: the value of register 7 at reset (00_scope.md R6, 10_state.md R35). -/
def Config.spReset : Byte := 0xF4#8

end Sys2Proof
end

