-- ==== Sys2Proof/Syntax.lean ====
section
/-! DEFINITION. The instructions: one constructor for each row of spec/opcode_table.json, in its order
(30_encoding.md R65, R70). An operand is the whole operand byte, because a register operand of 8 to 255 is an
instruction that faults when it executes, not an encoding that fails to decode (30_encoding.md R68). -/

namespace Sys2Proof

/-- An instruction with its operand bytes: `ra`, `rb` register indices, `imm` the immediate of LDI (R68 to R70). -/
inductive Instr where
  /-- CALL Ra (41_stack_control.md R113). -/
  | call (ra : Byte)
  /-- RET (41_stack_control.md R114). -/
  | ret
  /-- JMP Ra (41_stack_control.md R115). -/
  | jmp (ra : Byte)
  /-- JEQ Ra (41_stack_control.md R116). -/
  | jeq (ra : Byte)
  /-- JNE Ra (41_stack_control.md R117). -/
  | jne (ra : Byte)
  /-- ADD Ra, Rb (40_alu.md R81). -/
  | add (ra rb : Byte)
  /-- SUB Ra, Rb (40_alu.md R82). -/
  | sub (ra rb : Byte)
  /-- MUL Ra, Rb (40_alu.md R83). -/
  | mul (ra rb : Byte)
  /-- MOD Ra, Rb (40_alu.md R84). -/
  | mod (ra rb : Byte)
  /-- CMP Ra, Rb (40_alu.md R91). -/
  | cmp (ra rb : Byte)
  /-- AND Ra, Rb (40_alu.md R85). -/
  | and (ra rb : Byte)
  /-- OR Ra, Rb (40_alu.md R86). -/
  | or (ra rb : Byte)
  /-- XOR Ra, Rb (40_alu.md R87). -/
  | xor (ra rb : Byte)
  /-- NOT Ra (40_alu.md R88). -/
  | not (ra : Byte)
  /-- SHL Ra, Rb (40_alu.md R89). -/
  | shl (ra rb : Byte)
  /-- SHR Ra, Rb (40_alu.md R90). -/
  | shr (ra rb : Byte)
  /-- HLT (42_simple.md R130). -/
  | hlt
  /-- LDI Ra, imm8 (42_simple.md R131). -/
  | ldi (ra imm : Byte)
  /-- PRN Ra (42_simple.md R132). -/
  | prn (ra : Byte)
  /-- PUSH Ra (41_stack_control.md R111). -/
  | push (ra : Byte)
  /-- POP Ra (41_stack_control.md R112). -/
  | pop (ra : Byte)
  deriving DecidableEq, Repr

end Sys2Proof
end

