-- ==== Sys2Proof/WellFormed.lean ====
section
/-! DEFINITION. Which instructions are well formed: every register operand names a register (10_state.md R22,
30_encoding.md R68). An ill-formed one still decodes and, when it executes, takes AddressingError(Register). -/

namespace Sys2Proof

/-- A register operand names a register when its whole byte is 0 to 7; it is never masked (10_state.md R22). -/
def isRegIndex (r : Byte) : Bool := decide (r.toNat < Config.nReg)

/-- The operand bytes of kind `r`, operand a before operand b (30_encoding.md R70). -/
def Instr.regOperands : Instr → List Byte
  | .add a b | .sub a b | .mul a b | .mod a b | .cmp a b => [a, b]
  | .and a b | .or a b | .xor a b | .shl a b | .shr a b => [a, b]
  | .not a | .push a | .pop a | .call a | .jmp a | .jeq a | .jne a | .prn a => [a]
  | .ldi a _ => [a]
  | .hlt | .ret => []

/-- Every register operand is an index 0 to 7; the immediate of LDI is unconstrained (R68, R69). -/
def Instr.wf (i : Instr) : Bool := i.regOperands.all isRegIndex

end Sys2Proof
end

