-- ==== Sys2Proof/Decode.lean ====
section
/-! DEFINITION. The decoder and dispatcher (30_encoding.md R60 to R72, R76), total on any bytes and rejecting by
name, and after it the encoder, written from the same tables. -/

namespace Sys2Proof

/-! ## Opcode fields (R61) -/

/-- `op[7:6]`: the number of operand bytes (R61). -/
def opCount (op : Byte) : Nat := (op.extractLsb' 6 2).toNat

/-- `op[5]`: the ALU flag (R61). -/
def opIsAlu (op : Byte) : Bool := op.getLsbD 5

/-- `op[4]`: the PC-setting flag (R61). -/
def opSetsPc (op : Byte) : Bool := op.getLsbD 4

/-- The three dispatch classes (R64). -/
inductive OpClass where
  | controlFlow
  | alu
  | simple
  deriving DecidableEq, Repr

/-- Dispatch priority: control flow is checked first, then the ALU, then the simple table (R64). -/
def opClass (op : Byte) : OpClass :=
  if opSetsPc op then .controlFlow else if opIsAlu op then .alu else .simple

/-! ## The dispatch tables (R65) -/

/-- The mnemonic an opcode byte names, before its operand bytes are read. -/
inductive Mnemonic where
  | call | ret | jmp | jeq | jne
  | add | sub | mul | mod | cmp | and | or | xor | not | shl | shr
  | hlt | ldi | prn | push | pop
  deriving DecidableEq, Repr

/-- The control-flow table of R65. -/
def controlFlowTable : List (Byte × Mnemonic) :=
  [(0x50#8, .call), (0x11#8, .ret), (0x54#8, .jmp), (0x55#8, .jeq), (0x56#8, .jne)]

/-- The ALU table of R65; its SUB row stands only when SUB_DECODES (decision D1). -/
def aluTable (subDecodes : Bool) : List (Byte × Mnemonic) :=
  [(0xA0#8, .add), (0xA2#8, .mul), (0xA4#8, .mod), (0xA7#8, .cmp), (0xA8#8, .and), (0xAA#8, .or), (0xAB#8, .xor),
    (0x69#8, .not), (0xAC#8, .shl), (0xAD#8, .shr)] ++ if subDecodes then [(0xA1#8, .sub)] else []

/-- The simple table of R65; PUSH and POP are dispatched here (42_simple.md R133). -/
def simpleTable : List (Byte × Mnemonic) :=
  [(0x01#8, .hlt), (0x82#8, .ldi), (0x47#8, .prn), (0x45#8, .push), (0x46#8, .pop)]

/-- Why bytes are not an instruction. -/
inductive Reject where
  /-- An unknown byte of the control-flow or simple class (R66, 60_exceptions.md R142). -/
  | decodeError (op : Byte)
  /-- An unknown byte of the ALU class (R66, 60_exceptions.md R143). -/
  | unsupportedAluOp (op : Byte)
  /-- The bytes end before the operand bytes the opcode asks for (R67: in memory, an address above 255). -/
  | missingOperand (op : Byte)
  /-- No byte at all (in memory, an opcode fetch above 255). -/
  | noOpcode
  deriving DecidableEq, Repr

/-- `decode(op)` of R66, with the parameter SUB_DECODES: the class's table holds the byte, or it is rejected. -/
def decodeOpWith (subDecodes : Bool) (op : Byte) : Except Reject Mnemonic :=
  match opClass op with
  | .controlFlow =>
    match controlFlowTable.lookup op with
    | some m => .ok m
    | none => .error (.decodeError op)
  | .alu =>
    match (aluTable subDecodes).lookup op with
    | some m => .ok m
    | none => .error (.unsupportedAluOp op)
  | .simple =>
    match simpleTable.lookup op with
    | some m => .ok m
    | none => .error (.decodeError op)

/-- `decode(op)` of R66 at the core's SUB_DECODES. -/
def decodeOp (op : Byte) : Except Reject Mnemonic := decodeOpWith Config.params.subDecodes op

/-- The instruction of a mnemonic and its operand bytes (R70); a form without an operand ignores that argument. -/
def Mnemonic.build (m : Mnemonic) (a b : Byte) : Instr :=
  match m with
  | .call => .call a
  | .ret => .ret
  | .jmp => .jmp a
  | .jeq => .jeq a
  | .jne => .jne a
  | .add => .add a b
  | .sub => .sub a b
  | .mul => .mul a b
  | .mod => .mod a b
  | .cmp => .cmp a b
  | .and => .and a b
  | .or => .or a b
  | .xor => .xor a b
  | .not => .not a
  | .shl => .shl a b
  | .shr => .shr a b
  | .hlt => .hlt
  | .ldi => .ldi a b
  | .prn => .prn a
  | .push => .push a
  | .pop => .pop a

/-- Exactly `count` operand bytes off the front, in the order a, b; an absent operand is given as 0 and not used (R67). -/
def takeOperands : Nat → List Byte → Option (Byte × Byte × List Byte)
  | 0, rest => some (0#8, 0#8, rest)
  | 1, a :: rest => some (a, 0#8, rest)
  | 2, a :: b :: rest => some (a, b, rest)
  | _, _ => none

/-- Decode an instruction off the front of some bytes, with the parameter SUB_DECODES: the opcode first, its operand
count from `op[7:6]`, then only the bytes needed (R60, R62, R66, R67). Answers the instruction and the bytes after it. -/
def decodeWith (subDecodes : Bool) (bytes : List Byte) : Except Reject (Instr × List Byte) :=
  match bytes with
  | [] => .error .noOpcode
  | op :: rest =>
    match decodeOpWith subDecodes op with
    | .error r => .error r
    | .ok m =>
      match takeOperands (opCount op) rest with
      | none => .error (.missingOperand op)
      | some (a, b, after) => .ok (m.build a b, after)

/-- The core's decoder: `decodeWith` at the core's SUB_DECODES. -/
def decode (bytes : List Byte) : Except Reject (Instr × List Byte) := decodeWith Config.params.subDecodes bytes

/-! ## The encoder (R65, R70) -/

/-- The mnemonic of an instruction. -/
def Instr.mnemonic : Instr → Mnemonic
  | .call _ => .call
  | .ret => .ret
  | .jmp _ => .jmp
  | .jeq _ => .jeq
  | .jne _ => .jne
  | .add _ _ => .add
  | .sub _ _ => .sub
  | .mul _ _ => .mul
  | .mod _ _ => .mod
  | .cmp _ _ => .cmp
  | .and _ _ => .and
  | .or _ _ => .or
  | .xor _ _ => .xor
  | .not _ => .not
  | .shl _ _ => .shl
  | .shr _ _ => .shr
  | .hlt => .hlt
  | .ldi _ _ => .ldi
  | .prn _ => .prn
  | .push _ => .push
  | .pop _ => .pop

/-- The opcode byte of a mnemonic (R65). -/
def Mnemonic.opcode : Mnemonic → Byte
  | .call => 0x50#8
  | .ret => 0x11#8
  | .jmp => 0x54#8
  | .jeq => 0x55#8
  | .jne => 0x56#8
  | .add => 0xA0#8
  | .sub => 0xA1#8
  | .mul => 0xA2#8
  | .mod => 0xA4#8
  | .cmp => 0xA7#8
  | .and => 0xA8#8
  | .or => 0xAA#8
  | .xor => 0xAB#8
  | .not => 0x69#8
  | .shl => 0xAC#8
  | .shr => 0xAD#8
  | .hlt => 0x01#8
  | .ldi => 0x82#8
  | .prn => 0x47#8
  | .push => 0x45#8
  | .pop => 0x46#8

/-- The operand bytes of an instruction, operand a first (R60, R70). -/
def Instr.operands : Instr → List Byte
  | .ldi a imm => [a, imm]
  | i => i.regOperands

/-- The bytes of an instruction at ascending addresses: opcode, operand a, operand b (R60, 20_memory.md R44). -/
def encode (i : Instr) : List Byte := i.mnemonic.opcode :: i.operands

/-- The width of an instruction in bytes, `1 + op[7:6]` (R62). -/
def Instr.width (i : Instr) : Nat := 1 + opCount i.mnemonic.opcode

/-! ## The table's numbering of an instruction's bits -/

/-- The longest instruction, in bytes (R62). -/
def longestInstr : Nat := 3

/-- The first `n` bytes of a number, the least significant first. -/
def bytesOfNat : Nat → Nat → List Byte
  | 0, _ => []
  | n + 1, w => BitVec.ofNat 8 w :: bytesOfNat n (w / 256)

/-- The bytes of a table word, the first byte at the lowest address: bits 7..0 are the opcode byte, bits 15..8 operand a,
bits 23..16 operand b, and every bit from `nbits` up is 0. -/
def tableWordBytes (nbits w : Nat) : List Byte := bytesOfNat longestInstr (w % 2 ^ nbits)

/-- The instruction the decoder reads from a table word of `nbits` bits, none where it rejects it. -/
def decodeTableWord (nbits w : Nat) : Option Instr :=
  match decode (tableWordBytes nbits w) with
  | .ok (i, _) => some i
  | .error _ => none

end Sys2Proof
end

