-- ==== Sys2Proof/Machine/State.lean ====
section
/-! DEFINITION. The state of the core, all of it and nothing else (10_state.md, opening and R34), as plain data, with its
reset value (10_state.md R35), and the reasons a step can stop. -/

namespace Sys2Proof.Machine

/-- The memory: the cells that do not hold 0x00, as (address, byte) pairs in rising address order. An unlisted address
reads as 0x00, the reset contents of every cell (10_state.md R35). `Memory.wf` states the form. -/
abbrev Memory := List Host.Cell

/-- The flags register: three bits (10_state.md R27). -/
structure Flags where
  /-- less-than -/
  L : Bool
  /-- greater-than -/
  G : Bool
  /-- equal -/
  E : Bool
  deriving DecidableEq, Repr

/-- The controller state (10_state.md R30). -/
inductive Status where
  /-- from reset until `start` -/
  | idle
  /-- a step executes an instruction -/
  | running
  /-- ended by HLT -/
  | halted
  /-- ended by a fault, described by the fault record -/
  | faulted
  deriving DecidableEq, Repr

/-- The causes of the fault record (60_exceptions.md R141), in the order of their codes 0 to 7. -/
inductive FaultCause where
  /-- no fault -/
  | none
  /-- opcode byte in no table of its class, not ALU (R142) -/
  | decodeError
  /-- ALU-class byte that is no ALU operation (R143) -/
  | unsupportedAluOp
  /-- MOD with divisor 0 (R144) -/
  | divisionByZero
  /-- AddressingError(Fetch): opcode fetch above 255 (R145) -/
  | addressingFetch
  /-- AddressingError(Operand): operand fetch above 255 (R145) -/
  | addressingOperand
  /-- AddressingError(Register): register index above 7 (R145) -/
  | addressingRegister
  /-- AddressingError(ReturnAddress): CALL whose return address exceeds 255 (R145) -/
  | addressingReturnAddress
  deriving DecidableEq, Repr

/-- The fault record: cause, address of the faulting opcode byte, detail (60_exceptions.md R141). -/
structure FaultRecord where
  cause : FaultCause
  pc : Nat
  detail : Nat
  deriving DecidableEq, Repr

/-- The state of the core. -/
structure State where
  /-- the 256-byte memory (20_memory.md R40) -/
  mem : Memory
  /-- the general registers x[0] to x[7]; x[7] is the stack pointer (10_state.md R20, R21) -/
  x : Vector Byte 8
  /-- the program counter, 0 to 256 (10_state.md R23) -/
  pc : Nat
  /-- the flags register (10_state.md R27) -/
  fl : Flags
  /-- the controller state (10_state.md R30) -/
  status : Status
  /-- the fault record (10_state.md R31) -/
  fault : FaultRecord
  /-- the output trace, oldest byte first (10_state.md R32) -/
  out : List Byte
  deriving DecidableEq, Repr

/-- A fault that would leave the machine with no next state. There is NONE: each fault of the spec has an effect the spec
gives (the core moves to `Faulted` and sets the fault record, 60_exceptions.md R146), so it is a next state, taken by
`State.raise`, and a step of a core that is not running changes nothing (10_state.md R30). Nobody raises one, and that is
safe: a step always has a next state. -/
inductive Fault
  deriving DecidableEq, Repr

/-- The reasons the model gives an instruction no meaning. -/
inductive Refusal where
  /-- Raised by an arm of `exec` whose instruction has no meaning yet; no arm does, every instruction of the table is
  modelled. Safe. -/
  | notModelled (mnemonic : String)
  deriving DecidableEq, Repr

/-- What executing an instruction answers. -/
abbrev Result := Host.Outcome State Fault Refusal

/-- The core right after `rst` (10_state.md R35, 70_reset_and_hazards.md R170): memory all 0x00, x[0] to x[6] 0x00, SP 0xF4,
pc 0, flags 0, `Idle`, no fault, nothing output. -/
def State.reset : State where
  mem := []
  x := #v[0x00#8, 0x00#8, 0x00#8, 0x00#8, 0x00#8, 0x00#8, 0x00#8, Config.spReset]
  pc := 0
  fl := { L := false, G := false, E := false }
  status := .idle
  fault := { cause := .none, pc := 0, detail := 0 }
  out := []

end Sys2Proof.Machine
end

