-- ==== Sys2Proof/Machine/Ops.lean ====
section
/-! DEFINITION. The named operations over memory, registers, stack, program counter and output, and taking a fault. -/

namespace Sys2Proof.Machine

/-! ## Memory (20_memory.md) -/

/-- `mem[a]`: the cell's byte, 0x00 where the list names none (20_memory.md R40, 10_state.md R35). -/
def Memory.read (m : Memory) (a : Nat) : Byte :=
  match m with
  | [] => 0x00#8
  | (b, w) :: rest => if a = b then w else Memory.read rest a

/-- Put a byte at an address, keeping the addresses rising. -/
def Memory.insert (m : Memory) (a : Nat) (v : Byte) : Memory :=
  match m with
  | [] => [(a, v)]
  | (b, w) :: rest =>
    if a < b then (a, v) :: (b, w) :: rest
    else if a = b then (a, v) :: rest
    else (b, w) :: Memory.insert rest a v

/-- `mem[a] <- v` (20_memory.md R41); writing 0x00 removes the entry, so that equal memories are equal lists. -/
def Memory.write (m : Memory) (a : Nat) (v : Byte) : Memory :=
  if v = 0x00#8 then m.filter (fun c => c.1 != a) else m.insert a v

/-- The canonical form: addresses strictly rising, all of them cells of the memory, no entry equal to what an unlisted
address reads as. -/
def Memory.wf (m : Memory) : Bool :=
  decide (m.Pairwise (fun c d => c.1 < d.1)) && m.all (fun c => decide (c.1 < Config.memSize) && c.2 != 0x00#8)

/-- A fault cause with its detail, before it is taken (60_exceptions.md R141). -/
structure Trap where
  cause : FaultCause
  detail : Nat
  deriving DecidableEq, Repr

/-- `MemRead(a, 1)` at an address computed as an unbounded number: above 255 it raises the caller's AddressingError
(20_memory.md R41). A stack access has an 8-bit address and cannot raise it, so it reads the memory directly. -/
def State.memRead (s : State) (kind : FaultCause) (a : Nat) : Except Trap Byte :=
  if 255 < a then .error { cause := kind, detail := a } else .ok (s.mem.read a)

/-- `MemWrite(a, 1, v)` at an 8-bit address, which never raises (20_memory.md R41, R42). -/
def State.store (s : State) (a v : Byte) : State := { s with mem := s.mem.write a.toNat v }

/-! ## Registers (10_state.md R20 to R22) -/

/-- The stack pointer's register, SP_INDEX = 7 (10_state.md R21). -/
def sp : Fin 8 := 7

/-- Read a general register; none is hardwired (10_state.md R20). -/
def State.reg (s : State) (r : Fin 8) : Byte := s.x[r]

/-- Write a general register, the stack pointer like any other (10_state.md R20, R21). -/
def State.setReg (s : State) (r : Fin 8) (v : Byte) : State := { s with x := s.x.set r v }

/-! ## Program counter, flags, output, status -/

/-- Sequential advance by the instruction's width; it never wraps (10_state.md R24). -/
def State.advance (s : State) (width : Nat) : State := { s with pc := s.pc + width }

/-- Control transfer to an 8-bit target (10_state.md R25, 41_stack_control.md R118). -/
def State.jump (s : State) (target : Byte) : State := { s with pc := target.toNat }

/-- Write all three flags (10_state.md R27; only CMP does). -/
def State.setFlags (s : State) (fl : Flags) : State := { s with fl := fl }

/-- `emit(v)`: append a byte to the output trace (10_state.md R32, 42_simple.md R134). -/
def State.emit (s : State) (v : Byte) : State := { s with out := s.out ++ [v] }

/-- `status <- Halted` (42_simple.md R130). -/
def State.halt (s : State) : State := { s with status := .halted }

/-! ## Taking a fault (60_exceptions.md R146) -/

/-- `fault(cause, pc, detail)`: the one way a fault is taken. The core moves to `Faulted` and sets the fault record; the
record's pc is the faulting instruction's address; no register, flag, memory cell, output byte or pc is written (R141,
R146). There is no handler and no return from it: only `rst` leaves `Faulted` (R148). -/
def State.raise (s : State) (cause : FaultCause) (detail : Nat) : State :=
  { s with status := .faulted, fault := { cause := cause, pc := s.pc, detail := detail } }

/-- Take a fault that a check found. -/
def State.take (s : State) (t : Trap) : State := s.raise t.cause t.detail

/-! ## The stack discipline (41_stack_control.md R110 to R114) -/

/-- `sp_dec(s) = (s + 255) mod 256` (R110). -/
def spDec (v : Byte) : Byte := BitVec.ofNat 8 (v.toNat + 255)

/-- `sp_inc(s) = (s + 1) mod 256` (R110). -/
def spInc (v : Byte) : Byte := BitVec.ofNat 8 (v.toNat + 1)

/-- `x[7] <- sp_dec(x[7])`, the first write of PUSH and CALL (R111, R113). -/
def State.decSp (s : State) : State := s.setReg sp (spDec (s.reg sp))

/-- `x[7] <- sp_inc(x[7])`, the last register write of POP and RET (R112, R114). -/
def State.incSp (s : State) : State := s.setReg sp (spInc (s.reg sp))

/-- `MemWrite(x[7], 1, v)`: store at the top of the stack, after the decrement (R111, R113). -/
def State.storeTop (s : State) (v : Byte) : State := s.store (s.reg sp) v

/-- `MemRead(x[7], 1)`: the byte at the top of the stack, before the increment (R112, R114). -/
def State.top (s : State) : Byte := s.mem.read (s.reg sp).toNat

/-- The address PUSH and CALL store to in a state: the decremented stack pointer (R111, R113). -/
def State.pushAddr (s : State) : Nat := (spDec (s.reg sp)).toNat

end Sys2Proof.Machine
end

