-- ==== Sys2Proof/Machine/Operands.lean ====
section
/-! DEFINITION. The operand forms (30_encoding.md R68 to R70): one register, two registers, a register and an immediate,
none. Register indices are checked before the instruction reads any register, operand a before operand b. -/

namespace Sys2Proof.Machine

/-- `check_reg(r)` (40_alu.md R80), then the rest of the instruction on the register named: an index above 7 takes
AddressingError(Register) with the index byte as detail (30_encoding.md R68, 60_exceptions.md R145). -/
def withReg (s : State) (r : Byte) (k : Fin 8 → Result) : Result :=
  if h : r.toNat < 8 then k ⟨r.toNat, h⟩ else .next (s.raise .addressingRegister r.toNat)

/-- `check_reg(a); check_reg(b)`, in that order, then the rest on the two registers (30_encoding.md R68). -/
def withRegs (s : State) (a b : Byte) (k : Fin 8 → Fin 8 → Result) : Result :=
  withReg s a fun ra => withReg s b fun rb => k ra rb

/-- The shape of an ALU instruction of two registers that writes its result to the first: both sources are read before
the write, and the instruction is 3 bytes wide (40_alu.md R80). -/
def aluBinary (s : State) (a b : Byte) (f : Byte → Byte → Byte) : Result :=
  withRegs s a b fun ra rb => .next ((s.setReg ra (f (s.reg ra) (s.reg rb))).advance 3)

/-- JMP's shape under a condition: the register is checked whether or not the branch is taken (41_stack_control.md R115 to
R117, decision D6). -/
def branchIf (s : State) (a : Byte) (taken : Bool) : Result :=
  withReg s a fun r => .next (if taken then s.jump (s.reg r) else s.advance 2)

end Sys2Proof.Machine
end

