-- ==== Sys2Proof/Machine/Flags.lean ====
section
/-! DEFINITION. The flag computation: CMP's comparison, the only one the core has (10_state.md R27, 40_alu.md R91). -/

namespace Sys2Proof.Machine

/-- `sval(v) = v - 256 if v >= 128 else v` (00_scope.md R7), used only when CMP_SIGNED. -/
def sval (v : Byte) : Int := if 128 ≤ v.toNat then (v.toNat : Int) - 256 else v.toNat

/-- The value CMP compares: unsigned, or `sval` when CMP_SIGNED (40_alu.md R91, decision D2). -/
def cmpValue (signed : Bool) (v : Byte) : Int := if signed then sval v else v.toNat

/-- The three flags after a comparison; exactly one is 1 (40_alu.md R91). -/
def compareFlags (signed : Bool) (va vb : Byte) : Flags where
  L := decide (cmpValue signed va < cmpValue signed vb)
  G := decide (cmpValue signed vb < cmpValue signed va)
  E := decide (cmpValue signed va = cmpValue signed vb)

/-- The flags shown as a byte by an implementation or debugger, `0b00000LGE`; no instruction reads it (10_state.md R29). -/
def Flags.toByte (f : Flags) : Byte :=
  BitVec.ofNat 8 (4 * f.L.toNat + 2 * f.G.toNat + f.E.toNat)

end Sys2Proof.Machine
end

