-- ==== Sys2Proof/Machine/Alu.lean ====
section
/-! DEFINITION. The ALU family (40_alu.md R80 to R93): ADD, SUB, MUL, MOD, AND, OR, XOR, NOT, SHL, SHR, CMP. Every result is
computed on unbounded non-negative integers and narrowed to 8 bits at the end (R80); no flag is written but by CMP. -/

namespace Sys2Proof.Machine

/-- `(va + vb) mod 256` (R81). -/
def aluAdd (va vb : Byte) : Byte := BitVec.ofNat 8 (va.toNat + vb.toNat)

/-- `(va + 256 - vb) mod 256` (R82). -/
def aluSub (va vb : Byte) : Byte := BitVec.ofNat 8 (va.toNat + 256 - vb.toNat)

/-- `(va * vb) mod 256` (R83). -/
def aluMul (va vb : Byte) : Byte := BitVec.ofNat 8 (va.toNat * vb.toNat)

/-- `va mod vb`, for vb not 0 (R84). -/
def aluMod (va vb : Byte) : Byte := BitVec.ofNat 8 (va.toNat % vb.toNat)

/-- `255 - va` (R88). -/
def aluNot (va : Byte) : Byte := BitVec.ofNat 8 (255 - va.toNat)

/-- `(va * 2^vb) mod 256`, by the whole amount (R89, decision D3). -/
def aluShl (va vb : Byte) : Byte := BitVec.ofNat 8 (va.toNat * 2 ^ vb.toNat)

/-- `va div 2^vb`, logical, by the whole amount (R90, decision D3). -/
def aluShr (va vb : Byte) : Byte := BitVec.ofNat 8 (va.toNat / 2 ^ vb.toNat)

/-- ADD Ra, Rb (R81). -/
def execAdd (a b : Byte) (s : State) : Result := aluBinary s a b aluAdd

/-- SUB Ra, Rb (R82). -/
def execSub (a b : Byte) (s : State) : Result := aluBinary s a b aluSub

/-- MUL Ra, Rb (R83). -/
def execMul (a b : Byte) (s : State) : Result := aluBinary s a b aluMul

/-- MOD Ra, Rb (R84): a divisor of 0 takes DivisionByZero with the divisor's register index as detail, checked after both
register indices. -/
def execMod (a b : Byte) (s : State) : Result :=
  withRegs s a b fun ra rb =>
    if s.reg rb = 0x00#8 then .next (s.raise .divisionByZero b.toNat)
    else .next ((s.setReg ra (aluMod (s.reg ra) (s.reg rb))).advance 3)

/-- AND Ra, Rb (R85). -/
def execAnd (a b : Byte) (s : State) : Result := aluBinary s a b fun va vb => va &&& vb

/-- OR Ra, Rb (R86). -/
def execOr (a b : Byte) (s : State) : Result := aluBinary s a b fun va vb => va ||| vb

/-- XOR Ra, Rb (R87). -/
def execXor (a b : Byte) (s : State) : Result := aluBinary s a b fun va vb => va ^^^ vb

/-- NOT Ra (R88): one operand, 2 bytes wide. -/
def execNot (a : Byte) (s : State) : Result :=
  withReg s a fun ra => .next ((s.setReg ra (aluNot (s.reg ra))).advance 2)

/-- SHL Ra, Rb (R89). -/
def execShl (a b : Byte) (s : State) : Result := aluBinary s a b aluShl

/-- SHR Ra, Rb (R90). -/
def execShr (a b : Byte) (s : State) : Result := aluBinary s a b aluShr

/-- CMP Ra, Rb with the parameter CMP_SIGNED (R91): writes all three flags and no register. -/
def execCmpWith (signed : Bool) (a b : Byte) (s : State) : Result :=
  withRegs s a b fun ra rb => .next ((s.setFlags (compareFlags signed (s.reg ra) (s.reg rb))).advance 3)

/-- CMP Ra, Rb at the core's CMP_SIGNED (R91, decision D2). -/
def execCmp (a b : Byte) (s : State) : Result := execCmpWith Config.params.cmpSigned a b s

end Sys2Proof.Machine
end

