-- ==== Sys2Proof/Machine/Control.lean ====
section
/-! DEFINITION. The control-flow family (41_stack_control.md R113 to R118): CALL, RET, JMP, JEQ, JNE. -/

namespace Sys2Proof.Machine

/-- CALL Ra (R113): a return address above 255 takes AddressingError(ReturnAddress) before any write (decision D5); the
target register is read after the SP write, so CALL R7 jumps to the decremented SP (decision D10). -/
def execCall (a : Byte) (s : State) : Result :=
  withReg s a fun r =>
    if 255 < s.pc + 2 then .next (s.raise .addressingReturnAddress (s.pc + 2))
    else
      let pushed := s.decSp.storeTop (BitVec.ofNat 8 (s.pc + 2))
      .next (pushed.jump (pushed.reg r))

/-- RET (R114): pop the return address into the pc. -/
def execRet (s : State) : Result := .next (s.incSp.jump s.top)

/-- JMP Ra (R115). -/
def execJmp (a : Byte) (s : State) : Result := branchIf s a true

/-- JEQ Ra (R116): taken when E is set. -/
def execJeq (a : Byte) (s : State) : Result := branchIf s a s.fl.E

/-- JNE Ra (R117): taken when E is not set. -/
def execJne (a : Byte) (s : State) : Result := branchIf s a (!s.fl.E)

end Sys2Proof.Machine
end

