-- ==== Sys2Proof/Machine/Simple.lean ====
section
/-! DEFINITION. The simple family (42_simple.md R130 to R134, and PUSH and POP of 41_stack_control.md R111, R112). -/

namespace Sys2Proof.Machine

/-- HLT (42_simple.md R130): `Halted`, and the pc stays on the HLT byte. -/
def execHlt (s : State) : Result := .next s.halt

/-- LDI Ra, imm8 (42_simple.md R131): the immediate is the whole byte, unextended (30_encoding.md R69). -/
def execLdi (a imm : Byte) (s : State) : Result :=
  withReg s a fun r => .next ((s.setReg r imm).advance 3)

/-- PRN Ra (42_simple.md R132): append the register's byte to the output trace. -/
def execPrn (a : Byte) (s : State) : Result :=
  withReg s a fun r => .next ((s.emit (s.reg r)).advance 2)

/-- PUSH Ra (41_stack_control.md R111): the register is read after the SP write, so PUSH R7 pushes the decremented SP
(decision D10). -/
def execPush (a : Byte) (s : State) : Result :=
  withReg s a fun r => .next ((s.decSp.storeTop (s.decSp.reg r)).advance 2)

/-- POP Ra (41_stack_control.md R112): the increment follows the register write, so POP R7 leaves the popped byte plus one
(decision D10). -/
def execPop (a : Byte) (s : State) : Result :=
  withReg s a fun r => .next ((s.setReg r s.top).incSp.advance 2)

end Sys2Proof.Machine
end

