-- ==== Sys2Proof/Machine/Fetch.lean ====
section
/-! DEFINITION. Fetching an instruction from memory, in the check order of 60_exceptions.md R147: the opcode byte, its
decoding, operand a, operand b. -/

namespace Sys2Proof.Machine

/-- The fault a rejected byte takes (60_exceptions.md R141 to R143): the opcode byte is the detail. The last two rejections
are of bytes that are missing; a fetch from memory meets them as AddressingError at the address instead. -/
def trapOfReject : Reject → Trap
  | .decodeError op => { cause := .decodeError, detail := op.toNat }
  | .unsupportedAluOp op => { cause := .unsupportedAluOp, detail := op.toNat }
  | .missingOperand _ => { cause := .addressingOperand, detail := Config.memSize }
  | .noOpcode => { cause := .addressingFetch, detail := Config.memSize }

/-- Operand fetch (30_encoding.md R67): exactly `count` bytes, a before b; an absent operand is given as 0 and not used. -/
def fetchOperands (s : State) (count : Nat) : Except Trap (Byte × Byte) :=
  if count = 0 then .ok (0#8, 0#8)
  else
    match s.memRead .addressingOperand (s.pc + 1) with
    | .error t => .error t
    | .ok a =>
      if count = 1 then .ok (a, 0#8)
      else
        match s.memRead .addressingOperand (s.pc + 2) with
        | .error t => .error t
        | .ok b => .ok (a, b)

/-- Fetch and decode the instruction at the pc, with the parameter SUB_DECODES (70_reset_and_hazards.md R180). It reads the
memory of this state, so a store of the step before is seen at once (20_memory.md R52). -/
def fetchWith (subDecodes : Bool) (s : State) : Except Trap Instr :=
  match s.memRead .addressingFetch s.pc with
  | .error t => .error t
  | .ok op =>
    match decodeOpWith subDecodes op with
    | .error r => .error (trapOfReject r)
    | .ok m =>
      match fetchOperands s (opCount op) with
      | .error t => .error t
      | .ok (a, b) => .ok (m.build a b)

/-- Fetch and decode at the core's SUB_DECODES. -/
def fetch (s : State) : Except Trap Instr := fetchWith Config.params.subDecodes s

/-- Store bytes at ascending addresses from `a`; the ones past the last cell are dropped. -/
def Memory.place (m : Memory) (a : Nat) (bytes : List Byte) : Memory :=
  match bytes with
  | [] => m
  | v :: rest => Memory.place (if a < Config.memSize then m.write a v else m) (a + 1) rest

end Sys2Proof.Machine
end

