-- ==== Sys2Proof/Machine/Step.lean ====
section
/-! DEFINITION. One step of the core (70_reset_and_hazards.md R180), and how the host places one instruction for it. -/

namespace Sys2Proof.Machine

/-- One step: nothing when the core is not running (10_state.md R30; DEDUCED, log entry 1, safe); else fetch, decode and execute one instruction, a fault
of the fetch being taken like any other (70_reset_and_hazards.md R180, 60_exceptions.md R147). -/
def step (s : State) : Host.Outcome State Fault Refusal :=
  if s.status = .running then
    match fetch s with
    | .error t => .next (s.take t)
    | .ok i => exec i s
  else .next s

/-- The state with the instruction of a table word placed at the pc and the core running: what the host's load and `start`
do from `Idle` (70_reset_and_hazards.md R173, R174; DESIGN CHOICE, log entry 2, safe). -/
def State.withFetchWord (s : State) (nbits w : Nat) : State :=
  { s with mem := s.mem.place s.pc (tableWordBytes nbits w), status := .running }

end Sys2Proof.Machine
end

