-- ==== Sys2Proof/Machine/Variant.lean ====
section
/-! DEFINITION. The core at any value of the parameters SUB_DECODES and CMP_SIGNED (00_scope.md R6, decisions D1 and D2), over
the same fetch and the same meanings; `step` is the core at their defaults. -/

namespace Sys2Proof.Machine

/-- Execute at the parameters: CMP is the only instruction whose meaning depends on one (40_alu.md R91). -/
def execWith (p : Params) (i : Instr) (s : State) : Result :=
  match i with
  | .cmp a b => execCmpWith p.cmpSigned a b s
  | i => exec i s

/-- One step at the parameters: the decoder takes SUB_DECODES (30_encoding.md R66), CMP takes CMP_SIGNED. -/
def stepWith (p : Params) (s : State) : Result :=
  if s.status = .running then
    match fetchWith p.subDecodes s with
    | .error t => .next (s.take t)
    | .ok i => execWith p i s
  else .next s

end Sys2Proof.Machine
end

