-- ==== Sys2Proof/Machine/HostSide.lean ====
section
/-! DEFINITION. The core's interface to the host (00_scope.md R11): reset, load, start and step as events, the launch state,
LoadError, the output ports, the rendering of the output, and the harness's ceiling. What depends on a parameter of 00_scope.md R6
takes the parameters; the form without them is the core at its defaults. -/

namespace Sys2Proof.Machine

/-! ## Events (10_state.md R30) -/

/-- What can happen to the core (00_scope.md R11, 10_state.md R30). -/
inductive Event where
  /-- `rst` (70_reset_and_hazards.md R170) -/
  | rst
  /-- `load_we` with `load_addr` and `load_data` (70_reset_and_hazards.md R173) -/
  | load (addr data : Byte)
  /-- `start` (70_reset_and_hazards.md R174) -/
  | start
  /-- `step` (70_reset_and_hazards.md R180) -/
  | step
  deriving DecidableEq, Repr

/-- `load_we`: accepted only while `Idle`, and changes only memory (70_reset_and_hazards.md R173). -/
def State.loadByte (s : State) (addr data : Byte) : State :=
  if s.status = .idle then s.store addr data else s

/-- `start`: `Idle` becomes `Running` and nothing else changes; ignored in any other state (70_reset_and_hazards.md R174). -/
def State.start (s : State) : State :=
  if s.status = .idle then { s with status := .running } else s

/-- The state after one step at the parameters. The two other outcomes do not arise, since `Fault` is empty and no arm of `exec`
refuses. -/
def State.steppedWith (p : Params) (s : State) : State :=
  match stepWith p s with
  | .next t => t
  | .fault _ => s
  | .refused _ => s

/-- The state after one step of the core. -/
def State.stepped (s : State) : State := s.steppedWith Config.params

/-- The transition an event makes at the parameters; `rst` replaces all state by its reset values (70_reset_and_hazards.md R170,
R171). -/
def State.handleWith (p : Params) (s : State) (e : Event) : State :=
  match e with
  | .rst => State.reset
  | .load addr data => s.loadByte addr data
  | .start => s.start
  | .step => s.steppedWith p

/-- The transition an event makes of the core. -/
def State.handle (s : State) (e : Event) : State := s.handleWith Config.params e

/-! ## Load and launch (70_reset_and_hazards.md R172 to R175) -/

/-- Load bytes at ascending addresses from `a` on, one `load_we` each. -/
def State.loadFrom (s : State) (a : Nat) (img : List Byte) : State :=
  match img with
  | [] => s
  | v :: rest => State.loadFrom (s.loadByte (BitVec.ofNat 8 a) v) (a + 1) rest

/-- The host's load of an image: byte i to address i (70_reset_and_hazards.md R173). -/
def State.loadImage (s : State) (img : List Byte) : State := s.loadFrom 0 img

/-- The launch state of a run: reset, load, start (70_reset_and_hazards.md R175). -/
def launch (img : List Byte) : State := (State.reset.loadImage img).start

/-! ## The program image and LoadError (30_encoding.md R75, 60_exceptions.md R149) -/

/-- Why a load fails (60_exceptions.md R149); the core never faults for it. -/
inductive LoadError where
  /-- the program file is missing or unreadable -/
  | fileMissing
  /-- a line that is neither blank, comment nor a base-2 literal -/
  | badLine
  /-- a literal above 255 -/
  | literalTooLarge
  /-- more than 256 bytes -/
  | imageTooLong
  deriving DecidableEq, Repr

/-- White space around a literal, which is ignored (30_encoding.md R75). -/
def isBlank (c : Char) : Bool := c == ' ' || c == '\t' || c == '\r'

/-- The text without white space at either end. -/
def trimBlanks (cs : List Char) : List Char := ((cs.dropWhile isBlank).reverse.dropWhile isBlank).reverse

/-- The value of a digit character, for the bases 2, 10 and 16. -/
def digitValue (c : Char) : Option Nat :=
  let n := c.toNat
  if 48 ≤ n && n ≤ 57 then some (n - 48)
  else if 97 ≤ n && n ≤ 102 then some (n - 87)
  else if 65 ≤ n && n ≤ 70 then some (n - 55)
  else none

/-- The number written by digits of a base, after the digits already read. -/
def digitsValue (base acc : Nat) : List Char → Option Nat
  | [] => some acc
  | c :: rest =>
    match digitValue c with
    | some d => if d < base then digitsValue base (base * acc + d) rest else none
    | none => none

/-- One line of an image file: what stands before the first `#`, trimmed, is a base-2 literal of one byte; a blank or comment
line gives no byte (30_encoding.md R75). -/
def parseImageLine (line : List Char) : Except LoadError (Option Byte) :=
  let text := trimBlanks (line.takeWhile (· != '#'))
  if text = [] then .ok none
  else
    match digitsValue 2 0 text with
    | none => .error .badLine
    | some n => if n < 256 then .ok (some (BitVec.ofNat 8 n)) else .error .literalTooLarge

/-- The bytes of the lines of an image file, in file order. -/
def parseImageLines : List (List Char) → Except LoadError (List Byte)
  | [] => .ok []
  | line :: rest =>
    match parseImageLine line, parseImageLines rest with
    | .error e, _ => .error e
    | _, .error e => .error e
    | .ok none, .ok bs => .ok bs
    | .ok (some b), .ok bs => .ok (b :: bs)

/-- The image of a program file given by its lines, `none` where the file is missing: at most 256 bytes (30_encoding.md R75,
60_exceptions.md R149). -/
def parseImage (file : Option (List (List Char))) : Except LoadError (List Byte) :=
  match file with
  | none => .error .fileMissing
  | some lines =>
    match parseImageLines lines with
    | .error e => .error e
    | .ok img => if img.length ≤ Config.memSize then .ok img else .error .imageTooLong

/-- What the host does with a program file on a reset core: load and start it, or report LoadError and leave the core `Idle`
(60_exceptions.md R149, 70_reset_and_hazards.md R174). The spec does not say what memory holds when the error is found part-way
through the file: here the whole file is read first and no byte of it is loaded, so every cell stays 0x00 (DESIGN CHOICE, log
entry 15, unsafe for a claim about memory after a LoadError). -/
def boot (file : Option (List (List Char))) : State × Option LoadError :=
  match parseImage file with
  | .error e => (State.reset, some e)
  | .ok img => (launch img, none)

/-! ## Ports (00_scope.md R11) -/

/-- The number of a cause at the interface (60_exceptions.md R141). -/
def FaultCause.code : FaultCause → BitVec 3
  | .none => 0#3
  | .decodeError => 1#3
  | .unsupportedAluOp => 2#3
  | .divisionByZero => 3#3
  | .addressingFetch => 4#3
  | .addressingOperand => 5#3
  | .addressingRegister => 6#3
  | .addressingReturnAddress => 7#3

/-- The output signals (00_scope.md R11). The spec gives `status` two bits but no codes, so it stays a name. -/
structure Ports where
  /-- `out_valid` with `out_data`: the byte presented by this event, if it is a step that executes PRN -/
  outData : Option Byte
  status : Status
  faultCause : BitVec 3
  faultPc : BitVec 9
  faultDetail : BitVec 9
  deriving DecidableEq, Repr

/-- The output signals an event presents at the parameters: a step that executes PRN presents the byte it appends to the trace,
once (42_simple.md R134). -/
def State.portsWith (p : Params) (s : State) (e : Event) : Ports :=
  let t := s.handleWith p e
  { outData := if e = .step then (t.out.drop s.out.length).head? else none
    status := t.status
    faultCause := t.fault.cause.code
    faultPc := BitVec.ofNat 9 t.fault.pc
    faultDetail := BitVec.ofNat 9 t.fault.detail }

/-- The output signals an event of the core presents. -/
def State.ports (s : State) (e : Event) : Ports := s.portsWith Config.params e

/-- The host's rendering of the output trace: unsigned decimal digits and a newline per byte (42_simple.md R134). -/
def renderOut (out : List Byte) : List Char := out.flatMap fun v => Nat.toDigits 10 v.toNat ++ ['\n']

/-! ## Runs and the harness (70_reset_and_hazards.md R182, R185) -/

/-- The state after `k` steps at the parameters. -/
def State.stepsWith (p : Params) (s : State) : Nat → State
  | 0 => s
  | k + 1 => (s.steppedWith p).stepsWith p k

/-- The state after `k` steps of the core. -/
def State.steps (s : State) (k : Nat) : State := s.stepsWith Config.params k

/-- What a harness with a ceiling reports. -/
inductive HarnessReport where
  /-- the core is not running: the run has ended (or has not been started) in this state -/
  | stopped (s : State)
  /-- `BudgetExceeded`, with the state after the last step allowed; neither a status nor a fault of the core (R182) -/
  | budgetExceeded (s : State)
  deriving DecidableEq, Repr

/-- Run the core at the parameters under a ceiling of `k` steps (R182). That a core that is not running is reported as stopped is
the model's reading (DEDUCED, log entry 13, safe). -/
def harnessWith (p : Params) : Nat → State → HarnessReport
  | 0, s => if s.status = .running then .budgetExceeded s else .stopped s
  | k + 1, s => if s.status = .running then harnessWith p k (s.steppedWith p) else .stopped s

/-- Run the core under a ceiling of `k` steps (R182). -/
def harness (k : Nat) (s : State) : HarnessReport := harnessWith Config.params k s

/-- The harness at the parameters, its ceiling FUEL and the core's own SUB_DECODES and CMP_SIGNED alike; without a ceiling it
reports nothing and the run is its steps (R182, decision D21; DEDUCED, log entry 13, safe). -/
def harnessAt (p : Params) (s : State) : Option HarnessReport := p.fuel.map fun k => harnessWith p k s

end Sys2Proof.Machine
end

