-- ==== Sys2Proof/Machine/Assembler.lean ====
section
/-! DEFINITION. The assembler form of one instruction (30_encoding.md R73, R74): reading a line and writing one. -/

namespace Sys2Proof.Machine

/-- The mnemonic as it is written (30_encoding.md R65, R73). -/
def mnemonicName : Mnemonic → List Char
  | .call => ['C', 'A', 'L', 'L']
  | .ret => ['R', 'E', 'T']
  | .jmp => ['J', 'M', 'P']
  | .jeq => ['J', 'E', 'Q']
  | .jne => ['J', 'N', 'E']
  | .add => ['A', 'D', 'D']
  | .sub => ['S', 'U', 'B']
  | .mul => ['M', 'U', 'L']
  | .mod => ['M', 'O', 'D']
  | .cmp => ['C', 'M', 'P']
  | .and => ['A', 'N', 'D']
  | .or => ['O', 'R']
  | .xor => ['X', 'O', 'R']
  | .not => ['N', 'O', 'T']
  | .shl => ['S', 'H', 'L']
  | .shr => ['S', 'H', 'R']
  | .hlt => ['H', 'L', 'T']
  | .ldi => ['L', 'D', 'I']
  | .prn => ['P', 'R', 'N']
  | .push => ['P', 'U', 'S', 'H']
  | .pop => ['P', 'O', 'P']

/-- Every mnemonic; there are no pseudo-instructions (30_encoding.md R74). -/
def allMnemonics : List Mnemonic :=
  [.call, .ret, .jmp, .jeq, .jne, .add, .sub, .mul, .mod, .cmp, .and, .or, .xor, .not, .shl, .shr, .hlt, .ldi, .prn,
    .push, .pop]

/-- A register operand: `R0` to `R7`, or `SP` for `R7` (30_encoding.md R73). -/
def parseRegister : List Char → Option Byte
  | ['S', 'P'] => some 7#8
  | ['R', d] =>
    match digitValue d with
    | some n => if n < 8 then some (BitVec.ofNat 8 n) else none
    | none => none
  | _ => none

/-- An immediate 0 to 255: `0x` hexadecimal, `0b` binary, else decimal (30_encoding.md R73). -/
def parseImmediate (text : List Char) : Option Byte :=
  let value :=
    match text with
    | [] => none
    | '0' :: 'x' :: [] => none
    | '0' :: 'b' :: [] => none
    | '0' :: 'x' :: ds => digitsValue 16 0 ds
    | '0' :: 'b' :: ds => digitsValue 2 0 ds
    | ds => digitsValue 10 0 ds
  match value with
  | some n => if n < 256 then some (BitVec.ofNat 8 n) else none
  | none => none

/-- The comma-separated parts of a text, each trimmed; an empty text has none. -/
def operandTexts (text : List Char) : List (List Char) :=
  if trimBlanks text = [] then [] else (text.splitOn ',').map trimBlanks

/-- One line of assembler: the mnemonic, then operand a and operand b separated by a comma (30_encoding.md R73). -/
def assemble (line : List Char) : Option Instr :=
  let text := trimBlanks line
  let name := text.takeWhile fun c => !isBlank c
  match allMnemonics.find? fun m => mnemonicName m == name with
  | none => none
  | some m =>
    match m, operandTexts (text.drop name.length) with
    | .ldi, [a, imm] =>
      match parseRegister a, parseImmediate imm with
      | some r, some v => some (.ldi r v)
      | _, _ => none
    | .ldi, _ => none
    | m, ops =>
      if ops.length = opCount m.opcode then
        match ops.map parseRegister with
        | [] => some (m.build 0#8 0#8)
        | [some a] => some (m.build a 0#8)
        | [some a, some b] => some (m.build a b)
        | _ => none
      else none

/-- A register operand as written; only indices 0 to 7 are names (30_encoding.md R73). -/
def registerText (r : Byte) : List Char := 'R' :: Nat.toDigits 10 r.toNat

/-- A well-formed instruction as assembler text, the immediate in decimal (30_encoding.md R73). -/
def asmText (i : Instr) : List Char :=
  let operands :=
    match i with
    | .ldi a imm => [registerText a, Nat.toDigits 10 imm.toNat]
    | i => i.regOperands.map registerText
  match operands with
  | [] => mnemonicName i.mnemonic
  | ops => mnemonicName i.mnemonic ++ ' ' :: [',', ' '].intercalate ops

end Sys2Proof.Machine
end

