-- ==== Sys2Proof/Safety.lean ====
section
/-! DEFINITION. The terms claims are made in: the invariant of the core, the state a fault leaves, which fault a step meets
first, what an instruction may change, and the shape of each operand form, all read off the spec and not off the meanings. -/

namespace Sys2Proof.Safety

open Sys2Proof.Machine

/-! ## The invariant -/

/-- At most one flag is 1: all three are 0 before the first CMP, exactly one is 1 after it (10_state.md R27, R28). -/
def flagsAtMostOne (f : Flags) : Prop := f.L.toNat + f.G.toNat + f.E.toNat ≤ 1

/-- Exactly one flag is 1 (10_state.md R27). -/
def flagsExactlyOne (f : Flags) : Prop := f.L.toNat + f.G.toNat + f.E.toNat = 1

/-- The fault record fits the status (10_state.md R31, 60_exceptions.md R141, R146): while `Faulted` it names a cause and the
pc that was kept; otherwise it is `(None, 0, 0)`. -/
def recordFits (s : State) : Prop :=
  if s.status = .faulted then s.fault.cause ≠ .none ∧ s.fault.pc = s.pc ∧ s.fault.detail ≤ 256
  else s.fault = { cause := .none, pc := 0, detail := 0 }

/-- What every state of a run satisfies: canonical memory of 256 cells, pc 0 to 256 (10_state.md R23), at most one flag, and
a fault record that fits the status. -/
def CoreInv (s : State) : Prop := s.mem.wf = true ∧ s.pc ≤ 256 ∧ flagsAtMostOne s.fl ∧ recordFits s

/-! ## Faults -/

/-- The state after a fault: all as before but the status and the record (60_exceptions.md R146). -/
def faultedAt (s : State) (cause : FaultCause) (detail : Nat) : State :=
  { s with status := .faulted, fault := { cause := cause, pc := s.pc, detail := detail } }

/-- The opcode byte at the pc. -/
def opcodeAt (s : State) : Byte := s.mem.read s.pc

/-- The byte operand a is fetched from (30_encoding.md R67). -/
def operandA (s : State) : Byte := s.mem.read (s.pc + 1)

/-- The byte operand b is fetched from (30_encoding.md R67). -/
def operandB (s : State) : Byte := s.mem.read (s.pc + 2)

/-- The control-flow opcodes (30_encoding.md R66). -/
def controlFlowBytes : List Byte := [0x50#8, 0x11#8, 0x54#8, 0x55#8, 0x56#8]

/-- The ALU opcodes, SUB's byte among them (30_encoding.md R66, decision D1). -/
def aluBytes : List Byte :=
  [0xA0#8, 0xA1#8, 0xA2#8, 0xA4#8, 0xA7#8, 0xA8#8, 0xAA#8, 0xAB#8, 0x69#8, 0xAC#8, 0xAD#8]

/-- The simple opcodes (30_encoding.md R66). -/
def simpleBytes : List Byte := [0x01#8, 0x82#8, 0x47#8, 0x45#8, 0x46#8]

/-- The fault an opcode byte takes at decode, if any (30_encoding.md R66, 60_exceptions.md R142, R143). -/
def opcodeFault (op : Byte) : Option FaultCause :=
  if op.getLsbD 4 then (if op ∈ controlFlowBytes then none else some .decodeError)
  else if op.getLsbD 5 then (if op ∈ aluBytes then none else some .unsupportedAluOp)
  else if op ∈ simpleBytes then none else some .decodeError

/-- `op[7:6]` as a number: the operand count of an opcode byte (30_encoding.md R61). -/
def operandCount (op : Byte) : Nat := op.toNat / 64

/-- Whether operand b of an opcode is a register index: every count-2 opcode but LDI's (30_encoding.md R70). -/
def operandBIsRegister (op : Byte) : Bool := operandCount op == 2 && op != 0x82#8

/-- The first check of 60_exceptions.md R147 that fails at a running core, as the cause and detail R141 gives it. -/
def firstFault (s : State) : Option (FaultCause × Nat) :=
  if 255 < s.pc then some (.addressingFetch, s.pc)
  else
    match opcodeFault (opcodeAt s) with
    | some cause => some (cause, (opcodeAt s).toNat)
    | none =>
      if 1 ≤ operandCount (opcodeAt s) ∧ 255 < s.pc + 1 then some (.addressingOperand, s.pc + 1)
      else if operandCount (opcodeAt s) = 2 ∧ 255 < s.pc + 2 then some (.addressingOperand, s.pc + 2)
      else if 1 ≤ operandCount (opcodeAt s) ∧ 7 < (operandA s).toNat then
        some (.addressingRegister, (operandA s).toNat)
      else if operandBIsRegister (opcodeAt s) = true ∧ 7 < (operandB s).toNat then
        some (.addressingRegister, (operandB s).toNat)
      else if opcodeAt s = 0xA4#8 ∧ s.x[(operandB s).toNat]? = some 0x00#8 then
        some (.divisionByZero, (operandB s).toNat)
      else if opcodeAt s = 0x50#8 ∧ 255 < s.pc + 2 then some (.addressingReturnAddress, s.pc + 2)
      else none

/-! ## The instruction at the pc -/

/-- A running core whose pc addresses a cell that holds the opcode. -/
def Fetches (s : State) (op : Byte) : Prop := s.status = .running ∧ s.pc ≤ 255 ∧ opcodeAt s = op

/-- The bytes from the pc to the last cell, at most three: what an instruction at the pc can be made of. -/
def bytesAtPc (s : State) : List Byte :=
  ([s.pc, s.pc + 1, s.pc + 2].filter (· ≤ 255)).map s.mem.read

/-- What a width-3 instruction with two register operands leaves, given what it does with good ones: the operand bytes must
lie in memory, then register a, then register b must exist (60_exceptions.md R147, checks 4 and 5). -/
def afterRegReg (s : State) (k : Fin 8 → Fin 8 → State) : State :=
  if 254 ≤ s.pc then faultedAt s .addressingOperand 256
  else if ha : (operandA s).toNat < 8 then
    if hb : (operandB s).toNat < 8 then k ⟨(operandA s).toNat, ha⟩ ⟨(operandB s).toNat, hb⟩
    else faultedAt s .addressingRegister (operandB s).toNat
  else faultedAt s .addressingRegister (operandA s).toNat

/-- What a width-2 instruction with one register operand leaves, given what it does with a good one (R147). -/
def afterReg (s : State) (k : Fin 8 → State) : State :=
  if s.pc = 255 then faultedAt s .addressingOperand 256
  else if ha : (operandA s).toNat < 8 then k ⟨(operandA s).toNat, ha⟩
  else faultedAt s .addressingRegister (operandA s).toNat

/-- What a width-3 instruction with a register and an immediate leaves, given what it does with a good register (R147). -/
def afterRegImm (s : State) (k : Fin 8 → Byte → State) : State :=
  if 254 ≤ s.pc then faultedAt s .addressingOperand 256
  else if ha : (operandA s).toNat < 8 then k ⟨(operandA s).toNat, ha⟩ (operandB s)
  else faultedAt s .addressingRegister (operandA s).toNat

/-! ## Frames -/

/-- The registers an instruction may write: its destination, and SP where it moves the stack pointer (10_state.md R20, R21,
40_alu.md R80, 41_stack_control.md R111 to R114, 42_simple.md R131). -/
def writtenRegs : Instr → List Nat
  | .add a _ | .sub a _ | .mul a _ | .mod a _ => [a.toNat]
  | .and a _ | .or a _ | .xor a _ | .shl a _ | .shr a _ => [a.toNat]
  | .not a | .ldi a _ => [a.toNat]
  | .push _ | .call _ | .ret => [7]
  | .pop a => [a.toNat, 7]
  | .cmp _ _ | .jmp _ | .jeq _ | .jne _ | .hlt | .prn _ => []

/-- The instructions that store to memory: PUSH and CALL, at the decremented SP (20_memory.md R42). -/
def storesToStack : Instr → Bool
  | .push _ | .call _ => true
  | _ => false

/-- The instructions that transfer control, JEQ and JNE when taken (10_state.md R25, 41_stack_control.md R118). -/
def transfersControl (f : Flags) : Instr → Bool
  | .call _ | .ret | .jmp _ => true
  | .jeq _ => f.E
  | .jne _ => !f.E
  | _ => false

end Sys2Proof.Safety
end

