-- ==== Sys2Proof/Certificates/Slice0/Obligations.lean ====
section
/-! DEFINITION. The statements about the model, each read off a rule of spec/ (OBLIGATIONS.json lists them). -/

open Sys2Proof Sys2Proof.Machine Sys2Proof.Safety

/-! ## Encoding and decoding -/

/-- Decoding the encoding of any instruction, whatever its operand bytes and whatever follows it, gives it back with the bytes
after it (30_encoding.md R60, R65, R70). -/
def Obligations.DecodeEncodeRoundTrip : Prop :=
  ∀ (i : Instr) (rest : List Byte), decode (encode i ++ rest) = .ok (i, rest)

/-- Bytes that decode are the encoding of what they decode to, followed by the bytes left: each encoding has one meaning and no
byte of it is dropped (30_encoding.md R60, R65, R67, R70). -/
def Obligations.DecodedBytesAreTheEncoding : Prop :=
  ∀ (bytes : List Byte) (i : Instr) (rest : List Byte), decode bytes = .ok (i, rest) → encode i ++ rest = bytes

/-- Words written out bit by bit from 30_encoding.md R65 and R70 decode to the instructions they stand for. -/
def Obligations.OpcodeWordsDecode : Prop :=
  decode [0b01010000#8, 0b00000001#8] = .ok (.call 1#8, []) ∧
  decode [0b00010001#8] = .ok (.ret, []) ∧
  decode [0b01010101#8, 0b00000011#8] = .ok (.jeq 3#8, []) ∧
  decode [0b10100000#8, 0b00000010#8, 0b00000111#8] = .ok (.add 2#8 7#8, []) ∧
  decode [0b10100111#8, 0b00000000#8, 0b00000001#8] = .ok (.cmp 0#8 1#8, []) ∧
  decode [0b01101001#8, 0b00000100#8] = .ok (.not 4#8, []) ∧
  decode [0b10000010#8, 0b00000000#8, 0b00001000#8] = .ok (.ldi 0#8 8#8, []) ∧
  decode [0b01000101#8, 0b00000110#8] = .ok (.push 6#8, []) ∧
  decode [0b00000001#8] = .ok (.hlt, [])

/-- Which bytes decode, and under which name every other byte is rejected (30_encoding.md R66): control flow before ALU before
simple; 0xA1 decodes only when SUB_DECODES, the spec's decision D1. -/
def Obligations.OpcodeClassification : Prop :=
  ∀ (subDecodes : Bool) (op : Byte),
    if op = 0xA1#8 ∧ subDecodes = false then decodeOpWith subDecodes op = .error (.unsupportedAluOp op)
    else
      match opcodeFault op with
      | none => ∃ m : Mnemonic, decodeOpWith subDecodes op = .ok m ∧ m.opcode = op
      | some .unsupportedAluOp => decodeOpWith subDecodes op = .error (.unsupportedAluOp op)
      | some _ => decodeOpWith subDecodes op = .error (.decodeError op)

/-- How the 256 bytes divide: 21 decode (20 without SUB); 123 with the PC-setting bit, 53 (54) ALU bytes and 59 simple bytes
are rejected (30_encoding.md R71). -/
def Obligations.IllegalByteCounts : Prop :=
  let bytes := (List.range 256).map (BitVec.ofNat 8)
  let decodes := fun (subDecodes : Bool) (op : Byte) =>
    match decodeOpWith subDecodes op with
    | .ok _ => true
    | .error _ => false
  let unsupported := fun (subDecodes : Bool) (op : Byte) =>
    match decodeOpWith subDecodes op with
    | .error (.unsupportedAluOp _) => true
    | _ => false
  let decodeErrors := fun (setsPc : Bool) (op : Byte) =>
    match decodeOpWith true op with
    | .error (.decodeError _) => opSetsPc op == setsPc
    | _ => false
  bytes.countP (decodes true) = 21 ∧ bytes.countP (decodes false) = 20 ∧
  bytes.countP (unsupported true) = 53 ∧ bytes.countP (unsupported false) = 54 ∧
  bytes.countP (decodeErrors true) = 123 ∧ bytes.countP (decodeErrors false) = 59 ∧
  decodeOpWith true 0x00#8 = .error (.decodeError 0x00#8)

/-! ## The step -/

/-- A running core whose bytes at the pc decode to an instruction executes it: `step` is `exec` of it, with nothing around it
(70_reset_and_hazards.md R180). -/
def Obligations.StepRunsDecodedInstruction : Prop :=
  ∀ (s : State) (i : Instr) (rest : List Byte),
    s.status = .running → decode (bytesAtPc s) = .ok (i, rest) → step s = exec i s

/-- An opcode byte of no table faults under its class's name, whatever bytes follow it and wherever it stands, with the byte as
detail (60_exceptions.md R142, R143); 0xA1 is such an ALU byte when SUB_DECODES is false, the spec's decision D1 (log entry 3).
The record's form, with the byte as detail, is R141, the spec's decision D9. -/
def Obligations.UndefinedOpcodeFaults : Prop :=
  (∀ (p : Params) (s : State) (op : Byte), Fetches s op → op.getLsbD 4 = true → op ∉ controlFlowBytes →
    stepWith p s = .next (faultedAt s .decodeError op.toNat)) ∧
  (∀ (p : Params) (s : State) (op : Byte), Fetches s op → op.getLsbD 4 = false → op.getLsbD 5 = false → op ∉ simpleBytes →
    stepWith p s = .next (faultedAt s .decodeError op.toNat)) ∧
  (∀ (p : Params) (s : State) (op : Byte), Fetches s op → op.getLsbD 4 = false → op.getLsbD 5 = true →
    (op ∉ aluBytes ∨ (op = 0xA1#8 ∧ p.subDecodes = false)) →
    stepWith p s = .next (faultedAt s .unsupportedAluOp op.toNat)) ∧
  (∀ s : State, stepWith Config.params s = step s)

/-- A step of a running core faults exactly when a check of 60_exceptions.md R147 fails, and then with the cause and detail of
the first that fails; when none fails it completes. The order is the spec's decision D8, the record with its
detail its decision D9 (R141), and that nothing else changes its decision D7 (R146). -/
def Obligations.StepReportsFirstFailedCheck : Prop :=
  ∀ s : State, s.status = .running →
    match firstFault s with
    | some (cause, detail) => step s = .next (faultedAt s cause detail)
    | none => ∃ t, step s = .next t ∧ t.status ≠ .faulted ∧ t.fault = s.fault

/-- A fault is precise: the state after a faulting step is the state before it but for the status and the record, whose pc is the
faulting instruction's (60_exceptions.md R146; for every fault, decision D7 of the spec). -/
def Obligations.FaultIsPrecise : Prop :=
  ∀ s t : State, s.status = .running → step s = .next t → t.status = .faulted →
    t = { s with status := .faulted, fault := t.fault } ∧ t.fault.pc = s.pc ∧ t.fault.cause ≠ .none ∧
      firstFault s = some (t.fault.cause, t.fault.detail)

/-- The outcomes of a step (00_scope.md R12): a next state; of a running core it is Running, or Halted exactly by HLT, or Faulted
exactly when a check fails. That "no step" is answered by the unchanged state is the model's choice (log entry 1). -/
def Obligations.StepOutcomes : Prop :=
  ∀ s : State, ∃ t, step s = .next t ∧
    (s.status ≠ .running → t = s) ∧
    (s.status = .running →
      (t.status = .running ∧ firstFault s = none ∧ opcodeAt s ≠ 0x01#8) ∨
      (t.status = .halted ∧ firstFault s = none ∧ opcodeAt s = 0x01#8) ∨
      (t.status = .faulted ∧ firstFault s ≠ none))

/-! ## Invariants -/

/-- The core satisfies the invariant right after reset (10_state.md R35). -/
def Obligations.ResetSatisfiesInv : Prop := CoreInv State.reset

/-- Every step keeps the invariant: canonical memory, pc 0 to 256, at most one flag, a fault record that fits the status
(10_state.md R23, R24, R27, R30, R31). The bound 256 is the spec's decision D4, the record's form its decision D9. -/
def Obligations.StepKeepsInv : Prop :=
  ∀ s t : State, CoreInv s → step s = .next t → CoreInv t

/-- Every event of the host, too, keeps the invariant (10_state.md R30). -/
def Obligations.EventsKeepInv : Prop :=
  ∀ (s : State) (e : Event), CoreInv s → CoreInv (s.handle e)

/-- Once exactly one flag is set, it stays so whatever is executed (10_state.md R27, R28; decision D11 of the spec). -/
def Obligations.ExactlyOneFlagPersists : Prop :=
  ∀ s t : State, flagsExactlyOne s.fl → step s = .next t → flagsExactlyOne t.fl

/-! ## Reset, load, start, runs -/

/-- What `rst` leaves, whatever was before (10_state.md R35). The pc, the status, the record and the output at reset are the
spec's decisions D12, D14, D9 and D13. -/
def Obligations.ResetValues : Prop :=
  ∀ s : State,
    let t := s.handle .rst
    (∀ a : Nat, t.mem.read a = 0x00#8) ∧ t.x = #v[0x00#8, 0x00#8, 0x00#8, 0x00#8, 0x00#8, 0x00#8, 0x00#8, 0xF4#8] ∧
    t.pc = 0 ∧ t.fl = { L := false, G := false, E := false } ∧ t.status = .idle ∧
    t.fault = { cause := .none, pc := 0, detail := 0 } ∧ t.out = [] ∧ t = State.reset

/-- `start` moves Idle to Running and changes nothing else, and is ignored in any other state (70_reset_and_hazards.md R174).
The state Idle and the signal are the spec's decision D14. -/
def Obligations.StartOnlyFromIdle : Prop :=
  ∀ s : State, (s.status = .idle → s.handle .start = { s with status := .running }) ∧
    (s.status ≠ .idle → s.handle .start = s) ∧
    (∀ (file : Option (List (List Char))) (e : LoadError), parseImage file = .error e → (boot file).1.status = .idle)

/-- The launch state of a run (70_reset_and_hazards.md R175): the image's bytes at 0 on, 0x00 above them, and the rest as at
reset but Running. It rests on the spec's decisions D12, D14 and D22. -/
def Obligations.LaunchState : Prop :=
  ∀ img : List Byte, img.length ≤ 256 →
    (∀ (i : Nat) (h : i < img.length), (launch img).mem.read i = img[i]) ∧
    (∀ i : Nat, img.length ≤ i → (launch img).mem.read i = 0x00#8) ∧
    (launch img).mem.wf = true ∧
    (launch img).x = #v[0x00#8, 0x00#8, 0x00#8, 0x00#8, 0x00#8, 0x00#8, 0x00#8, 0xF4#8] ∧
    (launch img).pc = 0 ∧ (launch img).fl = { L := false, G := false, E := false } ∧
    (launch img).status = .running ∧ (launch img).fault = { cause := .none, pc := 0, detail := 0 } ∧ (launch img).out = []

/-- A LoadError leaves the core Idle with no fault; a missing file and an image above 256 bytes are LoadErrors
(60_exceptions.md R149; decision D22 of the spec). That memory too is as at reset is the model's choice (log entry 15). -/
def Obligations.LoadErrorLeavesCoreIdle : Prop :=
  (∀ (file : Option (List (List Char))) (e : LoadError), parseImage file = .error e →
    boot file = (State.reset, some e) ∧ (boot file).1.status = .idle ∧ (boot file).1.fault.cause = .none) ∧
  parseImage none = .error .fileMissing ∧
  (∀ (lines : List (List Char)) (img : List Byte), parseImageLines lines = .ok img → 256 < img.length →
    parseImage (some lines) = .error .imageTooLong)

/-- The transitions of the controller status (10_state.md R30), with the events that are ignored. Idle and start are the spec's
decision D14. -/
def Obligations.StatusTransitions : Prop :=
  (∀ s : State, (s.handle .rst).status = .idle) ∧
  (∀ s : State, s.status = .idle → (s.handle .start).status = .running ∧ s.handle .step = s) ∧
  (∀ s : State, s.status = .running → (s.handle .step).status =
    if firstFault s ≠ none then .faulted else if opcodeAt s = 0x01#8 then .halted else .running) ∧
  (∀ (s : State) (a v : Byte), s.status ≠ .idle → s.handle .start = s ∧ s.handle (.load a v) = s) ∧
  (∀ (s : State), s.status = .halted ∨ s.status = .faulted → s.handle .step = s)

/-- The harness under a ceiling of k steps, at any SUB_DECODES and CMP_SIGNED, reports BudgetExceeded with the state after the
k-th step exactly when that state is still Running, each step being the core's at those parameters (70_reset_and_hazards.md R182,
00_scope.md R6; decision D21 of the spec). That it otherwise reports the run as stopped, a core that was not running included, and
that without FUEL it reports nothing, is the model's reading (log entry 13). -/
def Obligations.HarnessCeiling : Prop :=
  (∀ (p : Params) (k : Nat) (s : State), harnessWith p k s =
    if (s.stepsWith p k).status = .running then .budgetExceeded (s.stepsWith p k) else .stopped (s.stepsWith p k)) ∧
  (∀ (p : Params) (s : State), s.stepsWith p 0 = s) ∧
  (∀ (p : Params) (k : Nat) (s t : State), stepWith p s = .next t → s.stepsWith p (k + 1) = t.stepsWith p k) ∧
  (∀ (p : Params) (s : State) (k : Nat), p.fuel = some k → harnessAt p s = some (harnessWith p k s)) ∧
  (∀ (p : Params) (s : State), p.fuel = none → harnessAt p s = none) ∧
  (∀ (k : Nat) (s : State), harness k s =
    if (s.steps k).status = .running then .budgetExceeded (s.steps k) else .stopped (s.steps k)) ∧
  (∀ (k : Nat) (s t : State), step s = .next t → s.steps 0 = s ∧ s.steps (k + 1) = t.steps k)

/-! ## The rule of each instruction: from the opcode byte at the pc of a running core to what the step leaves -/

/-- ADD (40_alu.md R81). -/
def Obligations.AddRule : Prop :=
  ∀ s : State, Fetches s 0xA0#8 →
    step s = .next (afterRegReg s fun ra rb =>
      { s with x := s.x.set ra (BitVec.ofNat 8 ((s.x[ra].toNat + s.x[rb].toNat) % 256)), pc := s.pc + 3 })

/-- SUB at either value of SUB_DECODES (40_alu.md R82); its byte and the parameter are the spec's decision D1. -/
def Obligations.SubRule : Prop :=
  (∀ (p : Params) (s : State), Fetches s 0xA1#8 →
    stepWith p s = .next (if p.subDecodes then
      afterRegReg s fun ra rb =>
        { s with x := s.x.set ra (BitVec.ofNat 8 ((s.x[ra].toNat + 256 - s.x[rb].toNat) % 256)), pc := s.pc + 3 }
      else faultedAt s .unsupportedAluOp 0xA1)) ∧
  (∀ s : State, stepWith Config.params s = step s) ∧ Config.params.subDecodes = true

/-- MUL (40_alu.md R83). -/
def Obligations.MulRule : Prop :=
  ∀ s : State, Fetches s 0xA2#8 →
    step s = .next (afterRegReg s fun ra rb =>
      { s with x := s.x.set ra (BitVec.ofNat 8 ((s.x[ra].toNat * s.x[rb].toNat) % 256)), pc := s.pc + 3 })

/-- MOD, its division by zero included (40_alu.md R84); that it is unsigned is the spec's decision D2. -/
def Obligations.ModRule : Prop :=
  ∀ s : State, Fetches s 0xA4#8 →
    step s = .next (afterRegReg s fun ra rb =>
      if s.x[rb] = 0x00#8 then faultedAt s .divisionByZero (operandB s).toNat
      else { s with x := s.x.set ra (BitVec.ofNat 8 (s.x[ra].toNat % s.x[rb].toNat)), pc := s.pc + 3 })

/-- AND, OR and XOR (40_alu.md R85, R86, R87): bit by bit. -/
def Obligations.BitwiseRules : Prop :=
  ∀ s : State,
    (Fetches s 0xA8#8 → step s = .next (afterRegReg s fun ra rb =>
      { s with x := s.x.set ra (BitVec.ofFnLE fun k => s.x[ra].getLsbD k && s.x[rb].getLsbD k), pc := s.pc + 3 })) ∧
    (Fetches s 0xAA#8 → step s = .next (afterRegReg s fun ra rb =>
      { s with x := s.x.set ra (BitVec.ofFnLE fun k => s.x[ra].getLsbD k || s.x[rb].getLsbD k), pc := s.pc + 3 })) ∧
    (Fetches s 0xAB#8 → step s = .next (afterRegReg s fun ra rb =>
      { s with x := s.x.set ra (BitVec.ofFnLE fun k => s.x[ra].getLsbD k ^^ s.x[rb].getLsbD k), pc := s.pc + 3 }))

/-- NOT (40_alu.md R88): one operand, width 2. -/
def Obligations.NotRule : Prop :=
  ∀ s : State, Fetches s 0x69#8 →
    step s = .next (afterReg s fun ra =>
      { s with x := s.x.set ra (BitVec.ofNat 8 (255 - s.x[ra].toNat)), pc := s.pc + 2 })

/-- SHL and SHR (40_alu.md R89, R90): by the whole amount, logical, the spec's decision D3. -/
def Obligations.ShiftRules : Prop :=
  ∀ s : State,
    (Fetches s 0xAC#8 → step s = .next (afterRegReg s fun ra rb =>
      { s with x := s.x.set ra (BitVec.ofNat 8 ((s.x[ra].toNat * 2 ^ s.x[rb].toNat) % 256)), pc := s.pc + 3 })) ∧
    (Fetches s 0xAD#8 → step s = .next (afterRegReg s fun ra rb =>
      { s with x := s.x.set ra (BitVec.ofNat 8 (s.x[ra].toNat / 2 ^ s.x[rb].toNat)), pc := s.pc + 3 }))

/-- CMP at either value of CMP_SIGNED (40_alu.md R91): all three flags, exactly one of them 1, and no register. The
parameter and its default are the spec's decision D2. -/
def Obligations.CmpRule : Prop :=
  (∀ (p : Params) (s : State), Fetches s 0xA7#8 →
    stepWith p s = .next (afterRegReg s fun ra rb =>
      { s with
        fl := { L := if p.cmpSigned then s.x[ra].slt s.x[rb] else s.x[ra].ult s.x[rb]
                G := if p.cmpSigned then s.x[rb].slt s.x[ra] else s.x[rb].ult s.x[ra]
                E := s.x[ra] == s.x[rb] }
        pc := s.pc + 3 })) ∧
  (∀ (p : Params) (s t : State), Fetches s 0xA7#8 → stepWith p s = .next t → t.status = .running → flagsExactlyOne t.fl) ∧
  (∀ s : State, stepWith Config.params s = step s) ∧ Config.params.cmpSigned = false

/-- PUSH (41_stack_control.md R111): the SP write comes before the register is read, the spec's decision D10. -/
def Obligations.PushRule : Prop :=
  ∀ s : State, Fetches s 0x45#8 →
    step s = .next (afterReg s fun r =>
      let x' := s.x.set 7 (s.x[7] - 1#8)
      { s with x := x', mem := s.mem.write (s.x[7] - 1#8).toNat x'[r], pc := s.pc + 2 })

/-- POP (41_stack_control.md R112): the register write comes before the SP write, the spec's decision D10. -/
def Obligations.PopRule : Prop :=
  ∀ s : State, Fetches s 0x46#8 →
    step s = .next (afterReg s fun r =>
      let x' := s.x.set r (s.mem.read s.x[7].toNat)
      { s with x := x'.set 7 (x'[7] + 1#8), pc := s.pc + 2 })

/-- CALL (41_stack_control.md R113): the return address above 255 faults before any write; the target is read after the SP
write. The two are the spec's decisions D5 and D10. -/
def Obligations.CallRule : Prop :=
  ∀ s : State, Fetches s 0x50#8 →
    step s = .next (afterReg s fun r =>
      if s.pc = 254 then faultedAt s .addressingReturnAddress 256
      else
        let x' := s.x.set 7 (s.x[7] - 1#8)
        { s with x := x', mem := s.mem.write (s.x[7] - 1#8).toNat (BitVec.ofNat 8 (s.pc + 2)), pc := x'[r].toNat })

/-- RET (41_stack_control.md R114). -/
def Obligations.RetRule : Prop :=
  ∀ s : State, Fetches s 0x11#8 →
    step s = .next { s with x := s.x.set 7 (s.x[7] + 1#8), pc := (s.mem.read s.x[7].toNat).toNat }

/-- JMP (41_stack_control.md R115). -/
def Obligations.JmpRule : Prop :=
  ∀ s : State, Fetches s 0x54#8 → step s = .next (afterReg s fun r => { s with pc := s.x[r].toNat })

/-- JEQ and JNE (41_stack_control.md R116, R117): the register is checked whether or not the branch is taken, the
spec's decision D6. -/
def Obligations.ConditionalBranchRules : Prop :=
  ∀ s : State,
    (Fetches s 0x55#8 → step s = .next (afterReg s fun r =>
      { s with pc := if s.fl.E = true then s.x[r].toNat else s.pc + 2 })) ∧
    (Fetches s 0x56#8 → step s = .next (afterReg s fun r =>
      { s with pc := if s.fl.E = false then s.x[r].toNat else s.pc + 2 }))

/-- HLT (42_simple.md R130): the pc stays, `Halted` is left by `rst` alone, and no other step ends in it. That `start` and
`load_we` change nothing in `Halted` is 10_state.md R30 and 70_reset_and_hazards.md R173 and R174, the spec's decisions D14 and
D22. -/
def Obligations.HltRule : Prop :=
  (∀ s : State, Fetches s 0x01#8 → step s = .next { s with status := .halted }) ∧
  (∀ (s : State) (e : Event), s.status = .halted → e ≠ .rst → s.handle e = s) ∧
  (∀ s t : State, s.status = .running → step s = .next t → t.status = .halted → Fetches s 0x01#8)

/-- LDI (42_simple.md R131). -/
def Obligations.LdiRule : Prop :=
  ∀ s : State, Fetches s 0x82#8 →
    step s = .next (afterRegImm s fun r imm => { s with x := s.x.set r imm, pc := s.pc + 3 })

/-- PRN (42_simple.md R132). -/
def Obligations.PrnRule : Prop :=
  ∀ s : State, Fetches s 0x47#8 →
    step s = .next (afterReg s fun r => { s with out := s.out ++ [s.x[r]], pc := s.pc + 2 })

/-! ## What an instruction answers when its operands are good -/

/-- ADD, SUB, MUL and MOD complete with the 8-bit sum, difference, product and remainder (40_alu.md R80 to R84). -/
def Obligations.ArithmeticCompletes : Prop :=
  ∀ (a b : Byte) (s : State) (ha : a.toNat < 8) (hb : b.toNat < 8),
    exec (.add a b) s = .next { s with x := s.x.set a.toNat (s.x[a.toNat] + s.x[b.toNat]), pc := s.pc + 3 } ∧
    exec (.sub a b) s = .next { s with x := s.x.set a.toNat (s.x[a.toNat] - s.x[b.toNat]), pc := s.pc + 3 } ∧
    exec (.mul a b) s = .next { s with x := s.x.set a.toNat (s.x[a.toNat] * s.x[b.toNat]), pc := s.pc + 3 } ∧
    (s.x[b.toNat] ≠ 0x00#8 →
      exec (.mod a b) s = .next { s with x := s.x.set a.toNat (s.x[a.toNat] % s.x[b.toNat]), pc := s.pc + 3 })

/-- AND, OR, XOR, NOT, SHL and SHR complete; a shift by 8 or more gives 0 (40_alu.md R85 to R90, R92; decision D3 of
the spec). -/
def Obligations.LogicAndShiftComplete : Prop :=
  ∀ (a b : Byte) (s : State) (ha : a.toNat < 8) (hb : b.toNat < 8),
    exec (.and a b) s = .next { s with x := s.x.set a.toNat (s.x[a.toNat] &&& s.x[b.toNat]), pc := s.pc + 3 } ∧
    exec (.or a b) s = .next { s with x := s.x.set a.toNat (s.x[a.toNat] ||| s.x[b.toNat]), pc := s.pc + 3 } ∧
    exec (.xor a b) s = .next { s with x := s.x.set a.toNat (s.x[a.toNat] ^^^ s.x[b.toNat]), pc := s.pc + 3 } ∧
    exec (.not a) s = .next { s with x := s.x.set a.toNat (~~~ s.x[a.toNat]), pc := s.pc + 2 } ∧
    exec (.shl a b) s = .next { s with x := s.x.set a.toNat (s.x[a.toNat] <<< s.x[b.toNat].toNat), pc := s.pc + 3 } ∧
    exec (.shr a b) s = .next { s with x := s.x.set a.toNat (s.x[a.toNat] >>> s.x[b.toNat].toNat), pc := s.pc + 3 } ∧
    (8 ≤ s.x[b.toNat].toNat →
      exec (.shl a b) s = .next { s with x := s.x.set a.toNat 0x00#8, pc := s.pc + 3 } ∧
      exec (.shr a b) s = .next { s with x := s.x.set a.toNat 0x00#8, pc := s.pc + 3 })

/-- CMP completes and sets exactly the flag of the unsigned order (40_alu.md R91; decision D2 of the spec). -/
def Obligations.CompareCompletes : Prop :=
  ∀ (a b : Byte) (s : State) (ha : a.toNat < 8) (hb : b.toNat < 8),
    (s.x[a.toNat].toNat < s.x[b.toNat].toNat →
      exec (.cmp a b) s = .next { s with fl := { L := true, G := false, E := false }, pc := s.pc + 3 }) ∧
    (s.x[b.toNat].toNat < s.x[a.toNat].toNat →
      exec (.cmp a b) s = .next { s with fl := { L := false, G := true, E := false }, pc := s.pc + 3 }) ∧
    (s.x[a.toNat] = s.x[b.toNat] →
      exec (.cmp a b) s = .next { s with fl := { L := false, G := false, E := true }, pc := s.pc + 3 })

/-- PUSH, POP, CALL and RET complete; the store and the load are at the stack pointer's address (41_stack_control.md R111 to
R114, decision D10 of the spec for register 7, D5 for CALL's return address). -/
def Obligations.StackAndCallComplete : Prop :=
  ∀ (a : Byte) (s : State) (ha : a.toNat < 8),
    exec (.push a) s = .next
      { s with x := s.x.set 7 (s.x[7] - 1#8)
               mem := s.mem.write s.pushAddr (if a = 7#8 then s.x[7] - 1#8 else s.x[a.toNat])
               pc := s.pc + 2 } ∧
    exec (.pop a) s = .next
      { s with x := if a = 7#8 then s.x.set 7 (s.mem.read s.x[7].toNat + 1#8)
                    else (s.x.set a.toNat (s.mem.read s.x[7].toNat)).set 7 (s.x[7] + 1#8)
               pc := s.pc + 2 } ∧
    (s.pc + 2 ≤ 255 → exec (.call a) s = .next
      { s with x := s.x.set 7 (s.x[7] - 1#8)
               mem := s.mem.write s.pushAddr (BitVec.ofNat 8 (s.pc + 2))
               pc := (if a = 7#8 then s.x[7] - 1#8 else s.x[a.toNat]).toNat }) ∧
    exec .ret s = .next
      { s with x := s.x.set 7 (s.x[7] + 1#8)
               pc := (s.mem.read s.x[7].toNat).toNat }

/-- JMP, JEQ and JNE complete, taken and not taken (41_stack_control.md R115 to R117). -/
def Obligations.JumpsComplete : Prop :=
  ∀ (a : Byte) (s : State) (ha : a.toNat < 8),
    exec (.jmp a) s = .next { s with pc := s.x[a.toNat].toNat } ∧
    (s.fl.E = true →
      exec (.jeq a) s = .next { s with pc := s.x[a.toNat].toNat } ∧ exec (.jne a) s = .next { s with pc := s.pc + 2 }) ∧
    (s.fl.E = false →
      exec (.jeq a) s = .next { s with pc := s.pc + 2 } ∧ exec (.jne a) s = .next { s with pc := s.x[a.toNat].toNat })

/-- HLT, LDI and PRN complete (42_simple.md R130 to R132). -/
def Obligations.SimpleOperationsComplete : Prop :=
  ∀ (a imm : Byte) (s : State) (ha : a.toNat < 8),
    exec .hlt s = .next { s with status := .halted } ∧
    exec (.ldi a imm) s = .next { s with x := s.x.set a.toNat imm, pc := s.pc + 3 } ∧
    exec (.prn a) s = .next { s with out := s.out ++ [s.x[a.toNat]], pc := s.pc + 2 }

/-- Where an instruction traps instead: the first register operand that names no register, a before b, is the detail of
AddressingError(Register), and nothing is written (10_state.md R22, 30_encoding.md R68; decision D6 of the spec). -/
def Obligations.BadRegisterOperandFaults : Prop :=
  ∀ (i : Instr) (s : State) (r : Byte), i.regOperands.find? (fun q => decide (8 ≤ q.toNat)) = some r →
    exec i s = .next (faultedAt s .addressingRegister r.toNat)

/-! ## Frames -/

/-- Every register but the destination, and the stack pointer where it moves, is unchanged (10_state.md R20, 40_alu.md R80). -/
def Obligations.RegisterFrame : Prop :=
  ∀ (i : Instr) (s t : State), exec i s = .next t → ∀ r : Fin 8, r.val ∉ writtenRegs i → t.x[r] = s.x[r]

/-- No instruction but CMP writes a flag (10_state.md R27; decision D11 of the spec). -/
def Obligations.FlagsWrittenOnlyByCmp : Prop :=
  ∀ (i : Instr) (s t : State), exec i s = .next t → (∀ a b : Byte, i ≠ .cmp a b) → t.fl = s.fl

/-- Every byte of memory is unchanged but the one PUSH and CALL store at the decremented stack pointer (20_memory.md R42). -/
def Obligations.MemoryFrame : Prop :=
  ∀ (i : Instr) (s t : State), exec i s = .next t →
    ∀ addr : Nat, (storesToStack i = true → addr ≠ s.pushAddr) → t.mem.read addr = s.mem.read addr

/-- The output trace grows only by PRN's one byte; the status changes only by HLT or a fault, and the record only by a fault,
which leaves everything else (10_state.md R32, R33). -/
def Obligations.OutputStatusRecordFrame : Prop :=
  ∀ (i : Instr) (s t : State), exec i s = .next t →
    (t.out = s.out ∨ ∃ (a : Byte) (ha : a.toNat < 8), i = .prn a ∧ t.out = s.out ++ [s.x[a.toNat]]) ∧
    (t = faultedAt s t.fault.cause t.fault.detail ∨
      (t.fault = s.fault ∧ t.status = if i = .hlt then .halted else s.status))

/-- The next pc of an instruction that does not fault: unchanged by HLT, an 8-bit target where control is transferred, else the
pc plus the width, without a wrap (10_state.md R24, R25, R26; decision D4 of the spec). -/
def Obligations.NextPc : Prop :=
  ∀ (i : Instr) (s t : State), exec i s = .next t → t.status ≠ .faulted →
    (i = .hlt → t.pc = s.pc) ∧
    (transfersControl s.fl i = true → t.pc ≤ 255) ∧
    (i ≠ .hlt → transfersControl s.fl i = false → t.pc = s.pc + i.width)

/-! ## Laws of the whole machine -/

/-- PUSH then POP of registers 0 to 6 moves the value, restores SP and leaves the byte below it (41_stack_control.md R120). -/
def Obligations.PushPopRoundTrip : Prop :=
  ∀ (a b : Byte) (s t u : State) (ha : a.toNat < 7) (hb : b.toNat < 7),
    exec (.push a) s = .next t → exec (.pop b) t = .next u →
    u.x[b.toNat] = s.x[a.toNat] ∧ u.x[7] = s.x[7] ∧ u.mem.read (s.x[7] - 1#8).toNat = s.x[a.toNat]

/-- The stack wraps: a push from SP 0 writes address 255, a pop from SP 255 reads it and leaves 0 (41_stack_control.md R120). -/
def Obligations.StackWraparound : Prop :=
  ∀ (a : Byte) (s : State) (ha : a.toNat < 7),
    (s.x[7] = 0x00#8 → ∃ t, exec (.push a) s = .next t ∧ t.x[7] = 0xFF#8 ∧ t.mem.read 255 = s.x[a.toNat]) ∧
    (s.x[7] = 0xFF#8 → ∃ t, exec (.pop a) s = .next t ∧ t.x[7] = 0x00#8 ∧ t.x[a.toNat] = s.mem.read 255)

/-- CALL then RET: a RET that finds SP and its byte as the CALL at P left them resumes at P + 2 with SP restored
(41_stack_control.md R120). -/
def Obligations.CallRetRoundTrip : Prop :=
  ∀ (a : Byte) (s t u v : State), a.toNat < 8 → s.pc ≤ 253 → exec (.call a) s = .next t →
    u.x[7] = t.x[7] → u.mem.read u.x[7].toNat = t.mem.read t.x[7].toNat → exec .ret u = .next v →
    v.pc = s.pc + 2 ∧ v.x[7] = s.x[7]

/-- A stack write is seen by the very next fetch (20_memory.md R52): a PUSH that lands on the byte after it decides what the next
step does, HLT and the undefined bytes as instances. It rests on the spec's decision D17. -/
def Obligations.StoreSeenByNextFetch : Prop :=
  ∀ (s : State) (ha : (operandA s).toNat < 7), Fetches s 0x45#8 → s.pc ≤ 253 → s.x[7] = BitVec.ofNat 8 (s.pc + 3) →
    ∃ t, step s = .next t ∧ t.pc = s.pc + 2 ∧ opcodeAt t = s.x[(operandA s).toNat] ∧
      (s.x[(operandA s).toNat] = 0x01#8 → step t = .next { t with status := .halted }) ∧
      (∀ cause, opcodeFault s.x[(operandA s).toNat] = some cause →
        step t = .next (faultedAt t cause s.x[(operandA s).toNat].toNat))

/-- No instruction reads L or G: two states that differ only in them lead to states that differ only in the flags
(10_state.md R27). -/
def Obligations.LessAndGreaterNeverRead : Prop :=
  ∀ (s t : State) (f : Flags), f.E = s.fl.E → step s = .next t →
    ∃ u, step { s with fl := f } = .next u ∧ u.mem = t.mem ∧ u.x = t.x ∧ u.pc = t.pc ∧ u.status = t.status ∧
      u.fault = t.fault ∧ u.out = t.out ∧ (u.fl = f ∨ u.fl = t.fl)

/-- No instruction reads the output trace or the fault record: a step is the same whatever they hold, and appends the same bytes
(10_state.md R33, 42_simple.md R134; decision D13 of the spec). -/
def Obligations.OutputAndRecordNeverRead : Prop :=
  ∀ (s t : State) (o : List Byte) (r : FaultRecord), step s = .next t →
    ∃ (u : State) (emitted : List Byte), step { s with out := o, fault := r } = .next u ∧ t.out = s.out ++ emitted ∧
      u.out = o ++ emitted ∧ u.mem = t.mem ∧ u.x = t.x ∧ u.pc = t.pc ∧ u.fl = t.fl ∧ u.status = t.status ∧
      (u.fault = t.fault ∨ (u.fault = r ∧ t.fault = s.fault))

/-- The output port presents a byte in exactly the steps that execute a PRN to its end, and it is the register's
(42_simple.md R134, 00_scope.md R11; decisions D13 and D14 of the spec). -/
def Obligations.OutputPortPresentsPrnByte : Prop :=
  (∀ (s : State) (ha : (operandA s).toNat < 8), Fetches s 0x47#8 → s.pc ≤ 254 →
    (s.ports .step).outData = some s.x[(operandA s).toNat]) ∧
  (∀ (s : State), ¬ (Fetches s 0x47#8 ∧ firstFault s = none) → (s.ports .step).outData = none) ∧
  (∀ (s : State) (e : Event), e ≠ .step → (s.ports e).outData = none)
end

