-- ==== Sys2Proof/Laws/Decode.lean ====
section
/-! SUPPORT. What the decoder can do, said once: the byte it takes is the opcode of the mnemonic it answers, the operand count
its bits give is 0, 1 or 2, and a rejected byte is rejected under its class's name. -/

namespace Sys2Proof

/-- The opcode byte of each mnemonic decodes to it (30_encoding.md R65, R66). -/
theorem decodeOp_opcode (m : Mnemonic) : decodeOp m.opcode = .ok m := by
  cases m <;> decide

/-- Whether an answer of the decoder fits its opcode byte: the mnemonic's opcode is that byte, or the rejection names it. -/
def answerFits (op : Byte) : Except Reject Mnemonic → Bool
  | .ok m => m.opcode == op
  | .error r => r == .decodeError op || r == .unsupportedAluOp op

/-- Every answer of the decoder fits its byte, whatever SUB_DECODES (30_encoding.md R65, R66). -/
theorem answerFits_decodeOpWith : ∀ (subDecodes : Bool) (op : Byte), answerFits op (decodeOpWith subDecodes op) = true := by
  decide

theorem decodeOpWith_ok {subDecodes : Bool} {op : Byte} {m : Mnemonic} (h : decodeOpWith subDecodes op = .ok m) :
    op = m.opcode := by
  have := answerFits_decodeOpWith subDecodes op
  rw [h] at this
  exact (beq_iff_eq.1 this).symm

theorem decodeOpWith_error {subDecodes : Bool} {op : Byte} {r : Reject} (h : decodeOpWith subDecodes op = .error r) :
    r = .decodeError op ∨ r = .unsupportedAluOp op := by
  have := answerFits_decodeOpWith subDecodes op
  rw [h] at this
  simpa [answerFits] using this

/-- The operand counts of 30_encoding.md R65, as the opcode bits give them. -/
theorem opCount_opcode (m : Mnemonic) :
    opCount m.opcode = match m with
      | .ret | .hlt => 0
      | .call | .jmp | .jeq | .jne | .not | .prn | .push | .pop => 1
      | .add | .sub | .mul | .mod | .cmp | .and | .or | .xor | .shl | .shr | .ldi => 2 := by
  cases m <;> decide

/-- No instruction has more than two operand bytes (30_encoding.md R62). -/
theorem opCount_opcode_le (m : Mnemonic) : opCount m.opcode ≤ 2 := by
  cases m <;> decide

/-- An instruction is 1 to 3 bytes wide (30_encoding.md R62). -/
theorem width_bounds (i : Instr) : 1 ≤ i.width ∧ i.width ≤ longestInstr := by
  have := opCount_opcode_le i.mnemonic
  unfold Instr.width longestInstr
  omega

/-- A built instruction has the mnemonic it was built from. -/
@[simp] theorem mnemonic_build (m : Mnemonic) (a b : Byte) : (m.build a b).mnemonic = m := by
  cases m <;> rfl

/-- An operand the opcode does not count is not used: a build is the same whatever stands for it. -/
theorem build_counted (m : Mnemonic) (a b : Byte) :
    m.build (if opCount m.opcode = 0 then 0#8 else a) (if opCount m.opcode = 2 then b else 0#8) = m.build a b := by
  rw [opCount_opcode]
  cases m <;> rfl

end Sys2Proof
end

