-- ==== Sys2Proof/Laws/State.lean ====
section
/-! SUPPORT. One lemma per field per update of State, each true by rfl, so that no proof unfolds a record update. -/

namespace Sys2Proof.Machine

@[simp] theorem State.store_mem (s : State) (a v : Byte) : (s.store a v).mem = s.mem.write a.toNat v := rfl
@[simp] theorem State.store_x (s : State) (a v : Byte) : (s.store a v).x = s.x := rfl
@[simp] theorem State.store_pc (s : State) (a v : Byte) : (s.store a v).pc = s.pc := rfl
@[simp] theorem State.store_fl (s : State) (a v : Byte) : (s.store a v).fl = s.fl := rfl
@[simp] theorem State.store_status (s : State) (a v : Byte) : (s.store a v).status = s.status := rfl
@[simp] theorem State.store_fault (s : State) (a v : Byte) : (s.store a v).fault = s.fault := rfl
@[simp] theorem State.store_out (s : State) (a v : Byte) : (s.store a v).out = s.out := rfl

@[simp] theorem State.setReg_mem (s : State) (r : Fin 8) (v : Byte) : (s.setReg r v).mem = s.mem := rfl
@[simp] theorem State.setReg_x (s : State) (r : Fin 8) (v : Byte) : (s.setReg r v).x = s.x.set r v := rfl
@[simp] theorem State.setReg_pc (s : State) (r : Fin 8) (v : Byte) : (s.setReg r v).pc = s.pc := rfl
@[simp] theorem State.setReg_fl (s : State) (r : Fin 8) (v : Byte) : (s.setReg r v).fl = s.fl := rfl
@[simp] theorem State.setReg_status (s : State) (r : Fin 8) (v : Byte) : (s.setReg r v).status = s.status := rfl
@[simp] theorem State.setReg_fault (s : State) (r : Fin 8) (v : Byte) : (s.setReg r v).fault = s.fault := rfl
@[simp] theorem State.setReg_out (s : State) (r : Fin 8) (v : Byte) : (s.setReg r v).out = s.out := rfl

@[simp] theorem State.advance_mem (s : State) (n : Nat) : (s.advance n).mem = s.mem := rfl
@[simp] theorem State.advance_x (s : State) (n : Nat) : (s.advance n).x = s.x := rfl
@[simp] theorem State.advance_pc (s : State) (n : Nat) : (s.advance n).pc = s.pc + n := rfl
@[simp] theorem State.advance_fl (s : State) (n : Nat) : (s.advance n).fl = s.fl := rfl
@[simp] theorem State.advance_status (s : State) (n : Nat) : (s.advance n).status = s.status := rfl
@[simp] theorem State.advance_fault (s : State) (n : Nat) : (s.advance n).fault = s.fault := rfl
@[simp] theorem State.advance_out (s : State) (n : Nat) : (s.advance n).out = s.out := rfl

@[simp] theorem State.jump_mem (s : State) (t : Byte) : (s.jump t).mem = s.mem := rfl
@[simp] theorem State.jump_x (s : State) (t : Byte) : (s.jump t).x = s.x := rfl
@[simp] theorem State.jump_pc (s : State) (t : Byte) : (s.jump t).pc = t.toNat := rfl
@[simp] theorem State.jump_fl (s : State) (t : Byte) : (s.jump t).fl = s.fl := rfl
@[simp] theorem State.jump_status (s : State) (t : Byte) : (s.jump t).status = s.status := rfl
@[simp] theorem State.jump_fault (s : State) (t : Byte) : (s.jump t).fault = s.fault := rfl
@[simp] theorem State.jump_out (s : State) (t : Byte) : (s.jump t).out = s.out := rfl

@[simp] theorem State.setFlags_mem (s : State) (f : Flags) : (s.setFlags f).mem = s.mem := rfl
@[simp] theorem State.setFlags_x (s : State) (f : Flags) : (s.setFlags f).x = s.x := rfl
@[simp] theorem State.setFlags_pc (s : State) (f : Flags) : (s.setFlags f).pc = s.pc := rfl
@[simp] theorem State.setFlags_fl (s : State) (f : Flags) : (s.setFlags f).fl = f := rfl
@[simp] theorem State.setFlags_status (s : State) (f : Flags) : (s.setFlags f).status = s.status := rfl
@[simp] theorem State.setFlags_fault (s : State) (f : Flags) : (s.setFlags f).fault = s.fault := rfl
@[simp] theorem State.setFlags_out (s : State) (f : Flags) : (s.setFlags f).out = s.out := rfl

@[simp] theorem State.emit_mem (s : State) (v : Byte) : (s.emit v).mem = s.mem := rfl
@[simp] theorem State.emit_x (s : State) (v : Byte) : (s.emit v).x = s.x := rfl
@[simp] theorem State.emit_pc (s : State) (v : Byte) : (s.emit v).pc = s.pc := rfl
@[simp] theorem State.emit_fl (s : State) (v : Byte) : (s.emit v).fl = s.fl := rfl
@[simp] theorem State.emit_status (s : State) (v : Byte) : (s.emit v).status = s.status := rfl
@[simp] theorem State.emit_fault (s : State) (v : Byte) : (s.emit v).fault = s.fault := rfl
@[simp] theorem State.emit_out (s : State) (v : Byte) : (s.emit v).out = s.out ++ [v] := rfl

@[simp] theorem State.halt_mem (s : State) : (s.halt).mem = s.mem := rfl
@[simp] theorem State.halt_x (s : State) : (s.halt).x = s.x := rfl
@[simp] theorem State.halt_pc (s : State) : (s.halt).pc = s.pc := rfl
@[simp] theorem State.halt_fl (s : State) : (s.halt).fl = s.fl := rfl
@[simp] theorem State.halt_status (s : State) : (s.halt).status = .halted := rfl
@[simp] theorem State.halt_fault (s : State) : (s.halt).fault = s.fault := rfl
@[simp] theorem State.halt_out (s : State) : (s.halt).out = s.out := rfl

@[simp] theorem State.raise_mem (s : State) (c : FaultCause) (d : Nat) : (s.raise c d).mem = s.mem := rfl
@[simp] theorem State.raise_x (s : State) (c : FaultCause) (d : Nat) : (s.raise c d).x = s.x := rfl
@[simp] theorem State.raise_pc (s : State) (c : FaultCause) (d : Nat) : (s.raise c d).pc = s.pc := rfl
@[simp] theorem State.raise_fl (s : State) (c : FaultCause) (d : Nat) : (s.raise c d).fl = s.fl := rfl
@[simp] theorem State.raise_status (s : State) (c : FaultCause) (d : Nat) : (s.raise c d).status = .faulted := rfl
@[simp] theorem State.raise_fault (s : State) (c : FaultCause) (d : Nat) : (s.raise c d).fault = { cause := c, pc := s.pc, detail := d } := rfl
@[simp] theorem State.raise_out (s : State) (c : FaultCause) (d : Nat) : (s.raise c d).out = s.out := rfl

@[simp] theorem State.take_mem (s : State) (t : Trap) : (s.take t).mem = s.mem := rfl
@[simp] theorem State.take_x (s : State) (t : Trap) : (s.take t).x = s.x := rfl
@[simp] theorem State.take_pc (s : State) (t : Trap) : (s.take t).pc = s.pc := rfl
@[simp] theorem State.take_fl (s : State) (t : Trap) : (s.take t).fl = s.fl := rfl
@[simp] theorem State.take_status (s : State) (t : Trap) : (s.take t).status = .faulted := rfl
@[simp] theorem State.take_fault (s : State) (t : Trap) : (s.take t).fault = { cause := t.cause, pc := s.pc, detail := t.detail } := rfl
@[simp] theorem State.take_out (s : State) (t : Trap) : (s.take t).out = s.out := rfl

@[simp] theorem State.decSp_mem (s : State) : (s.decSp).mem = s.mem := rfl
@[simp] theorem State.decSp_x (s : State) : (s.decSp).x = s.x.set sp (spDec (s.reg sp)) := rfl
@[simp] theorem State.decSp_pc (s : State) : (s.decSp).pc = s.pc := rfl
@[simp] theorem State.decSp_fl (s : State) : (s.decSp).fl = s.fl := rfl
@[simp] theorem State.decSp_status (s : State) : (s.decSp).status = s.status := rfl
@[simp] theorem State.decSp_fault (s : State) : (s.decSp).fault = s.fault := rfl
@[simp] theorem State.decSp_out (s : State) : (s.decSp).out = s.out := rfl

@[simp] theorem State.incSp_mem (s : State) : (s.incSp).mem = s.mem := rfl
@[simp] theorem State.incSp_x (s : State) : (s.incSp).x = s.x.set sp (spInc (s.reg sp)) := rfl
@[simp] theorem State.incSp_pc (s : State) : (s.incSp).pc = s.pc := rfl
@[simp] theorem State.incSp_fl (s : State) : (s.incSp).fl = s.fl := rfl
@[simp] theorem State.incSp_status (s : State) : (s.incSp).status = s.status := rfl
@[simp] theorem State.incSp_fault (s : State) : (s.incSp).fault = s.fault := rfl
@[simp] theorem State.incSp_out (s : State) : (s.incSp).out = s.out := rfl

@[simp] theorem State.storeTop_mem (s : State) (v : Byte) : (s.storeTop v).mem = s.mem.write (s.reg sp).toNat v := rfl
@[simp] theorem State.storeTop_x (s : State) (v : Byte) : (s.storeTop v).x = s.x := rfl
@[simp] theorem State.storeTop_pc (s : State) (v : Byte) : (s.storeTop v).pc = s.pc := rfl
@[simp] theorem State.storeTop_fl (s : State) (v : Byte) : (s.storeTop v).fl = s.fl := rfl
@[simp] theorem State.storeTop_status (s : State) (v : Byte) : (s.storeTop v).status = s.status := rfl
@[simp] theorem State.storeTop_fault (s : State) (v : Byte) : (s.storeTop v).fault = s.fault := rfl
@[simp] theorem State.storeTop_out (s : State) (v : Byte) : (s.storeTop v).out = s.out := rfl

end Sys2Proof.Machine
end

