-- ==== Sys2Proof/Laws/Ops.lean ====
section
/-! SUPPORT. What each shared operation can do, said once: the stack moves, the register checks, the operand shapes and the
fetch. Later proofs cite these and do not unfold the operations. -/

namespace Sys2Proof.Machine

/-! ## Registers and the stack -/

theorem State.setReg_reg (s : State) (r q : Fin 8) (v : Byte) :
    (s.setReg r v).reg q = if q = r then v else s.reg q := by
  simp only [State.reg, State.setReg, Fin.getElem_fin, Vector.getElem_set, Fin.ext_iff, eq_comm]

theorem State.reg_sp (s : State) : s.reg sp = s.x[7] := rfl

/-- The decrement of the stack pointer is subtraction of 1 in 8 bits (41_stack_control.md R110). -/
theorem spDec_eq (v : Byte) : spDec v = v - 1#8 := by
  apply BitVec.eq_of_toNat_eq
  have := v.isLt
  simp only [spDec, BitVec.toNat_ofNat, BitVec.toNat_sub]
  omega

/-- The increment of the stack pointer is addition of 1 in 8 bits (41_stack_control.md R110). -/
theorem spInc_eq (v : Byte) : spInc v = v + 1#8 := by
  apply BitVec.eq_of_toNat_eq
  simp [spInc, BitVec.toNat_add]

theorem spInc_spDec (v : Byte) : spInc (spDec v) = v := by
  rw [spInc_eq, spDec_eq, BitVec.sub_add_cancel]

/-- After the decrement the stack pointer is the address PUSH and CALL store to (41_stack_control.md R111, R113). -/
@[simp] theorem State.decSp_reg_sp (s : State) : s.decSp.reg sp = spDec (s.reg sp) := by
  rw [State.decSp, State.setReg_reg, if_pos rfl]

/-- The store of PUSH and CALL is at `pushAddr` (41_stack_control.md R111, R113). -/
theorem State.decSp_storeTop_mem (s : State) (v : Byte) : (s.decSp.storeTop v).mem = s.mem.write s.pushAddr v := by
  rw [State.storeTop_mem, State.decSp_reg_sp]
  rfl

/-- A stack store leaves the registers as the decrement left them. -/
@[simp] theorem State.decSp_storeTop_reg (s : State) (v : Byte) (r : Fin 8) :
    (s.decSp.storeTop v).reg r = s.decSp.reg r := rfl

/-! ## The register checks -/

theorem withReg_good (s : State) (r : Byte) (k : Fin 8 → Result) (h : r.toNat < 8) :
    withReg s r k = k ⟨r.toNat, h⟩ := by
  simp [withReg, h]

theorem withReg_bad (s : State) (r : Byte) (k : Fin 8 → Result) (h : ¬ r.toNat < 8) :
    withReg s r k = .next (s.raise .addressingRegister r.toNat) := by
  simp [withReg, h]

theorem withRegs_good (s : State) (a b : Byte) (k : Fin 8 → Fin 8 → Result) (ha : a.toNat < 8) (hb : b.toNat < 8) :
    withRegs s a b k = k ⟨a.toNat, ha⟩ ⟨b.toNat, hb⟩ := by
  simp [withRegs, withReg, ha, hb]

/-- If a check of one register answers a next state, the register exists and the rest answered it, or it is the fault. -/
theorem withReg_next {s t : State} {r : Byte} {k : Fin 8 → Result} (h : withReg s r k = .next t) :
    (∃ hr : r.toNat < 8, k ⟨r.toNat, hr⟩ = .next t) ∨ (8 ≤ r.toNat ∧ t = s.raise .addressingRegister r.toNat) := by
  unfold withReg at h
  split at h
  · exact .inl ⟨‹_›, h⟩
  · injection h with h
    exact .inr ⟨by omega, h.symm⟩

/-- The same of two registers: the first bad one, a before b, is the fault's detail. -/
theorem withRegs_next {s t : State} {a b : Byte} {k : Fin 8 → Fin 8 → Result} (h : withRegs s a b k = .next t) :
    (∃ (ha : a.toNat < 8) (hb : b.toNat < 8), k ⟨a.toNat, ha⟩ ⟨b.toNat, hb⟩ = .next t) ∨
      (8 ≤ a.toNat ∧ t = s.raise .addressingRegister a.toNat) ∨
      (a.toNat < 8 ∧ 8 ≤ b.toNat ∧ t = s.raise .addressingRegister b.toNat) := by
  rcases withReg_next h with ⟨ha, h⟩ | h
  · rcases withReg_next h with ⟨hb, h⟩ | ⟨hb, h⟩
    · exact .inl ⟨ha, hb, h⟩
    · exact .inr (.inr ⟨ha, hb, h⟩)
  · exact .inr (.inl h)

/-- The two-register ALU shape either takes the fault of a bad register or writes one register and advances by 3. -/
theorem aluBinary_next {s t : State} {a b : Byte} {f : Byte → Byte → Byte} (h : aluBinary s a b f = .next t) :
    (∃ (ha : a.toNat < 8) (hb : b.toNat < 8),
        t = (s.setReg ⟨a.toNat, ha⟩ (f (s.reg ⟨a.toNat, ha⟩) (s.reg ⟨b.toNat, hb⟩))).advance 3) ∨
      (8 ≤ a.toNat ∧ t = s.raise .addressingRegister a.toNat) ∨
      (a.toNat < 8 ∧ 8 ≤ b.toNat ∧ t = s.raise .addressingRegister b.toNat) := by
  rcases withRegs_next h with ⟨ha, hb, h⟩ | h
  · injection h with h
    exact .inl ⟨ha, hb, h.symm⟩
  · exact .inr h

/-- A branch either takes the fault of a bad register, or jumps, or advances by 2. -/
theorem branchIf_next {s t : State} {a : Byte} {taken : Bool} (h : branchIf s a taken = .next t) :
    (∃ ha : a.toNat < 8, t = if taken then s.jump (s.reg ⟨a.toNat, ha⟩) else s.advance 2) ∨
      (8 ≤ a.toNat ∧ t = s.raise .addressingRegister a.toNat) := by
  rcases withReg_next h with ⟨ha, h⟩ | h
  · injection h with h
    exact .inl ⟨ha, h.symm⟩
  · exact .inr h

/-! ## The ALU functions as 8-bit operations -/

theorem aluAdd_eq (va vb : Byte) : aluAdd va vb = va + vb := by
  apply BitVec.eq_of_toNat_eq; simp [aluAdd, BitVec.toNat_add]

theorem aluSub_eq (va vb : Byte) : aluSub va vb = va - vb := by
  apply BitVec.eq_of_toNat_eq
  have := vb.isLt
  simp only [aluSub, BitVec.toNat_ofNat, BitVec.toNat_sub]
  omega

theorem aluMul_eq (va vb : Byte) : aluMul va vb = va * vb := by
  apply BitVec.eq_of_toNat_eq; simp [aluMul, BitVec.toNat_mul]

theorem aluMod_eq (va vb : Byte) : aluMod va vb = va % vb := by
  apply BitVec.eq_of_toNat_eq
  have := va.isLt
  have := Nat.mod_le va.toNat vb.toNat
  simp only [aluMod, BitVec.toNat_ofNat, BitVec.toNat_umod]
  omega

theorem aluNot_eq (va : Byte) : aluNot va = ~~~ va := by
  apply BitVec.eq_of_toNat_eq
  have := va.isLt
  simp only [aluNot, BitVec.toNat_ofNat, BitVec.toNat_not]
  omega

theorem aluShl_eq (va vb : Byte) : aluShl va vb = va <<< vb.toNat := by
  apply BitVec.eq_of_toNat_eq
  simp [aluShl, BitVec.toNat_shiftLeft, Nat.shiftLeft_eq]

theorem aluShr_eq (va vb : Byte) : aluShr va vb = va >>> vb.toNat := by
  apply BitVec.eq_of_toNat_eq
  have := va.isLt
  have := Nat.div_le_self va.toNat (2 ^ vb.toNat)
  simp only [aluShr, BitVec.toNat_ofNat, BitVec.toNat_ushiftRight, Nat.shiftRight_eq_div_pow]
  exact Nat.mod_eq_of_lt (by omega)

/-! ## The fetch -/

/-- A checked read answers the cell's byte exactly when the address is one of the memory. -/
theorem State.memRead_cases (s : State) (kind : FaultCause) (a : Nat) :
    (a ≤ 255 ∧ s.memRead kind a = .ok (s.mem.read a)) ∨
      (255 < a ∧ s.memRead kind a = .error { cause := kind, detail := a }) := by
  unfold State.memRead
  by_cases h : 255 < a
  · exact .inr ⟨h, by simp [h]⟩
  · exact .inl ⟨by omega, by simp [h]⟩

theorem State.memRead_ok (s : State) (kind : FaultCause) (a : Nat) (h : a ≤ 255) :
    s.memRead kind a = .ok (s.mem.read a) := by
  simp [State.memRead, Nat.not_lt.2 h]

theorem State.memRead_error (s : State) (kind : FaultCause) (a : Nat) (h : 255 < a) :
    s.memRead kind a = .error { cause := kind, detail := a } := by
  simp [State.memRead, h]

/-- The operand fetch that succeeds: the operand bytes lie in memory and are the ones after the opcode. -/
theorem fetchOperands_ok (s : State) (count : Nat) (h : s.pc + count ≤ 255) (hc : count ≤ 2) :
    fetchOperands s count =
      .ok (if count = 0 then 0#8 else s.mem.read (s.pc + 1), if count = 2 then s.mem.read (s.pc + 2) else 0#8) := by
  rcases (by omega : count = 0 ∨ count = 1 ∨ count = 2) with rfl | rfl | rfl
  · rfl
  · simp [fetchOperands, State.memRead_ok _ _ _ (by omega : s.pc + 1 ≤ 255)]
  · simp [fetchOperands, State.memRead_ok _ _ _ (by omega : s.pc + 1 ≤ 255),
      State.memRead_ok _ _ _ (by omega : s.pc + 2 ≤ 255)]

/-- The operand fetch that fails: an operand byte lies above 255, and from a pc of the memory its address is 256. -/
theorem fetchOperands_error (s : State) (count : Nat) (hp : s.pc ≤ 255) (h : 255 < s.pc + count) (hc : count ≤ 2) :
    fetchOperands s count = .error { cause := .addressingOperand, detail := 256 } := by
  rcases (by omega : count = 1 ∨ count = 2) with rfl | rfl
  · have : s.pc = 255 := by omega
    simp [fetchOperands, State.memRead, this]
  · by_cases h1 : s.pc = 255
    · simp [fetchOperands, State.memRead, h1]
    · have : s.pc = 254 := by omega
      simp [fetchOperands, State.memRead, this]

end Sys2Proof.Machine
end

