-- ==== Sys2Proof/Laws/Step.lean ====
section
/-! SUPPORT. What a step can do, said once: nothing, the fault of a fetch that fails, or the execution of the instruction whose
bytes stand at the pc. -/

namespace Sys2Proof.Machine

theorem step_not_running (s : State) (h : s.status ≠ .running) : step s = .next s := by
  simp [step, h]

theorem step_fetch_ok {s : State} {i : Instr} (hr : s.status = .running) (h : fetch s = .ok i) : step s = exec i s := by
  simp [step, hr, h]

theorem step_fetch_error {s : State} {t : Trap} (hr : s.status = .running) (h : fetch s = .error t) :
    step s = .next (s.take t) := by
  simp [step, hr, h]

/-- The core at its own parameters is the core. -/
theorem execWith_default (i : Instr) (s : State) : execWith Config.params i s = exec i s := by
  cases i <;> rfl

theorem stepWith_default (s : State) : stepWith Config.params s = step s := by
  unfold stepWith step fetch
  split
  · split <;> simp_all [execWith_default]
  · rfl

/-! ## The fetch, by what stands at the pc -/

theorem fetchWith_above (subDecodes : Bool) (s : State) (h : 255 < s.pc) :
    fetchWith subDecodes s = .error { cause := .addressingFetch, detail := s.pc } := by
  simp [fetchWith, State.memRead_error _ _ _ h]

theorem fetchWith_reject {subDecodes : Bool} {s : State} {r : Reject} (hp : s.pc ≤ 255)
    (hd : decodeOpWith subDecodes (s.mem.read s.pc) = .error r) : fetchWith subDecodes s = .error (trapOfReject r) := by
  simp [fetchWith, State.memRead_ok _ _ _ hp, hd]

theorem fetchWith_short {subDecodes : Bool} {s : State} {m : Mnemonic} (hp : s.pc ≤ 255)
    (hd : decodeOpWith subDecodes (s.mem.read s.pc) = .ok m) (h : 255 < s.pc + opCount m.opcode) :
    fetchWith subDecodes s = .error { cause := .addressingOperand, detail := 256 } := by
  have hm := decodeOpWith_ok hd
  have hf := fetchOperands_error s (opCount m.opcode) hp h (opCount_opcode_le m)
  unfold fetchWith
  simp only [State.memRead_ok _ _ _ hp, hd]
  rw [hm, hf]

theorem fetchWith_ok {subDecodes : Bool} {s : State} {m : Mnemonic}
    (hd : decodeOpWith subDecodes (s.mem.read s.pc) = .ok m) (h : s.pc + opCount m.opcode ≤ 255) :
    fetchWith subDecodes s = .ok (m.build (s.mem.read (s.pc + 1)) (s.mem.read (s.pc + 2))) := by
  have hm := decodeOpWith_ok hd
  have hf := fetchOperands_ok s (opCount m.opcode) h (opCount_opcode_le m)
  unfold fetchWith
  simp only [State.memRead_ok _ _ _ (by omega : s.pc ≤ 255), hd]
  rw [hm, hf]
  simp only [build_counted]

/-- A fetch that answers an instruction: its opcode stands at the pc, its bytes lie in memory, and it is built from them. -/
theorem fetchWith_eq_ok {subDecodes : Bool} {s : State} {i : Instr} (h : fetchWith subDecodes s = .ok i) :
    ∃ m : Mnemonic, decodeOpWith subDecodes (s.mem.read s.pc) = .ok m ∧ s.mem.read s.pc = m.opcode ∧
      s.pc + opCount m.opcode ≤ 255 ∧ i = m.build (s.mem.read (s.pc + 1)) (s.mem.read (s.pc + 2)) := by
  by_cases hp : 255 < s.pc
  · rw [fetchWith_above _ _ hp] at h; cases h
  · cases hd : decodeOpWith subDecodes (s.mem.read s.pc) with
    | error r => rw [fetchWith_reject (by omega) hd] at h; cases h
    | ok m =>
      by_cases hs : 255 < s.pc + opCount m.opcode
      · rw [fetchWith_short (by omega) hd hs] at h; cases h
      · rw [fetchWith_ok hd (by omega)] at h
        injection h with h
        exact ⟨m, rfl, decodeOpWith_ok hd, by omega, h.symm⟩

/-- A fetch that fails: the pc is above 255, or the opcode is rejected, or an operand lies above 255. -/
theorem fetchWith_eq_error {subDecodes : Bool} {s : State} {t : Trap} (h : fetchWith subDecodes s = .error t) :
    (255 < s.pc ∧ t = { cause := .addressingFetch, detail := s.pc }) ∨
      (s.pc ≤ 255 ∧ ∃ r, decodeOpWith subDecodes (s.mem.read s.pc) = .error r ∧ t = trapOfReject r) ∨
      (s.pc ≤ 255 ∧ ∃ m, decodeOpWith subDecodes (s.mem.read s.pc) = .ok m ∧ 255 < s.pc + opCount m.opcode ∧
        t = { cause := .addressingOperand, detail := 256 }) := by
  by_cases hp : 255 < s.pc
  · rw [fetchWith_above _ _ hp] at h
    injection h with h
    exact .inl ⟨hp, h.symm⟩
  · cases hd : decodeOpWith subDecodes (s.mem.read s.pc) with
    | error r =>
      rw [fetchWith_reject (by omega) hd] at h
      injection h with h
      exact .inr (.inl ⟨by omega, r, rfl, h.symm⟩)
    | ok m =>
      by_cases hs : 255 < s.pc + opCount m.opcode
      · rw [fetchWith_short (by omega) hd hs] at h
        injection h with h
        exact .inr (.inr ⟨by omega, m, rfl, hs, h.symm⟩)
      · rw [fetchWith_ok hd (by omega)] at h; cases h

/-- If a step answers a next state, the core was not running and it is unchanged, or the fetch failed and its fault was taken,
or the instruction fetched answered it. -/
theorem step_next {s t : State} (h : step s = .next t) :
    (s.status ≠ .running ∧ t = s) ∨
      (s.status = .running ∧ ∃ f, fetch s = .error f ∧ t = s.take f) ∨
      (s.status = .running ∧ ∃ i, fetch s = .ok i ∧ exec i s = .next t) := by
  by_cases hr : s.status = .running
  · cases hf : fetch s with
    | error f =>
      rw [step_fetch_error hr hf] at h
      injection h with h
      exact .inr (.inl ⟨hr, f, rfl, h.symm⟩)
    | ok i =>
      rw [step_fetch_ok hr hf] at h
      exact .inr (.inr ⟨hr, i, rfl, h⟩)
  · rw [step_not_running s hr] at h
    injection h with h
    exact .inl ⟨hr, h.symm⟩

/-- The two shapes of a running core's step at a byte that decodes: the operand fault, or the instruction's execution. -/
theorem step_opcode {s : State} {m : Mnemonic} (hr : s.status = .running) (hp : s.pc ≤ 255)
    (hd : decodeOp (s.mem.read s.pc) = .ok m) :
    step s = if 255 < s.pc + opCount m.opcode then .next (s.raise .addressingOperand 256)
      else exec (m.build (s.mem.read (s.pc + 1)) (s.mem.read (s.pc + 2))) s := by
  split
  · exact step_fetch_error hr (fetchWith_short hp hd ‹_›)
  · exact step_fetch_ok hr (fetchWith_ok hd (by omega))

end Sys2Proof.Machine
end

