-- ==== Sys2Proof/Laws/Exec.lean ====
section
/-! SUPPORT. What each instruction can do, said once: if it answers a next state, it took one of its faults or it is the state its
rule gives. Also: every instruction answers a next state. -/

namespace Sys2Proof.Machine

/-- The check of a register operand failed: the fault is taken (30_encoding.md R68). -/
def BadReg (s t : State) (r : Byte) : Prop := 8 ≤ r.toNat ∧ t = s.raise .addressingRegister r.toNat

theorem execNot_next {a : Byte} {s t : State} (h : execNot a s = .next t) :
    (∃ ha : a.toNat < 8, t = (s.setReg ⟨a.toNat, ha⟩ (aluNot (s.reg ⟨a.toNat, ha⟩))).advance 2) ∨ BadReg s t a := by
  rcases withReg_next h with ⟨ha, h⟩ | h
  · injection h with h
    exact .inl ⟨ha, h.symm⟩
  · exact .inr h

theorem execMod_next {a b : Byte} {s t : State} (h : execMod a b s = .next t) :
    (∃ hb : b.toNat < 8, a.toNat < 8 ∧ s.reg ⟨b.toNat, hb⟩ = 0x00#8 ∧ t = s.raise .divisionByZero b.toNat) ∨
      (∃ (ha : a.toNat < 8) (hb : b.toNat < 8), s.reg ⟨b.toNat, hb⟩ ≠ 0x00#8 ∧
        t = (s.setReg ⟨a.toNat, ha⟩ (aluMod (s.reg ⟨a.toNat, ha⟩) (s.reg ⟨b.toNat, hb⟩))).advance 3) ∨
      BadReg s t a ∨ (a.toNat < 8 ∧ BadReg s t b) := by
  rcases withRegs_next h with ⟨ha, hb, h⟩ | h
  · split at h <;> injection h with h
    · exact .inl ⟨hb, ha, ‹_›, h.symm⟩
    · exact .inr (.inl ⟨ha, hb, ‹_›, h.symm⟩)
  · exact .inr (.inr h)

theorem execCmpWith_next {signed : Bool} {a b : Byte} {s t : State} (h : execCmpWith signed a b s = .next t) :
    (∃ (ha : a.toNat < 8) (hb : b.toNat < 8),
        t = (s.setFlags (compareFlags signed (s.reg ⟨a.toNat, ha⟩) (s.reg ⟨b.toNat, hb⟩))).advance 3) ∨
      BadReg s t a ∨ (a.toNat < 8 ∧ BadReg s t b) := by
  rcases withRegs_next h with ⟨ha, hb, h⟩ | h
  · injection h with h
    exact .inl ⟨ha, hb, h.symm⟩
  · exact .inr h

theorem execLdi_next {a imm : Byte} {s t : State} (h : execLdi a imm s = .next t) :
    (∃ ha : a.toNat < 8, t = (s.setReg ⟨a.toNat, ha⟩ imm).advance 3) ∨ BadReg s t a := by
  rcases withReg_next h with ⟨ha, h⟩ | h
  · injection h with h
    exact .inl ⟨ha, h.symm⟩
  · exact .inr h

theorem execPrn_next {a : Byte} {s t : State} (h : execPrn a s = .next t) :
    (∃ ha : a.toNat < 8, t = (s.emit (s.reg ⟨a.toNat, ha⟩)).advance 2) ∨ BadReg s t a := by
  rcases withReg_next h with ⟨ha, h⟩ | h
  · injection h with h
    exact .inl ⟨ha, h.symm⟩
  · exact .inr h

theorem execPush_next {a : Byte} {s t : State} (h : execPush a s = .next t) :
    (∃ ha : a.toNat < 8, t = (s.decSp.storeTop (s.decSp.reg ⟨a.toNat, ha⟩)).advance 2) ∨ BadReg s t a := by
  rcases withReg_next h with ⟨ha, h⟩ | h
  · injection h with h
    exact .inl ⟨ha, h.symm⟩
  · exact .inr h

theorem execPop_next {a : Byte} {s t : State} (h : execPop a s = .next t) :
    (∃ ha : a.toNat < 8, t = (s.setReg ⟨a.toNat, ha⟩ s.top).incSp.advance 2) ∨ BadReg s t a := by
  rcases withReg_next h with ⟨ha, h⟩ | h
  · injection h with h
    exact .inl ⟨ha, h.symm⟩
  · exact .inr h

theorem execCall_next {a : Byte} {s t : State} (h : execCall a s = .next t) :
    (a.toNat < 8 ∧ 255 < s.pc + 2 ∧ t = s.raise .addressingReturnAddress (s.pc + 2)) ∨
      (∃ ha : a.toNat < 8, s.pc + 2 ≤ 255 ∧
        t = (s.decSp.storeTop (BitVec.ofNat 8 (s.pc + 2))).jump (s.decSp.reg ⟨a.toNat, ha⟩)) ∨
      BadReg s t a := by
  rcases withReg_next h with ⟨ha, h⟩ | h
  · split at h <;> injection h with h
    · exact .inl ⟨ha, ‹_›, h.symm⟩
    · exact .inr (.inl ⟨ha, by omega, h.symm⟩)
  · exact .inr (.inr h)

/-! ## What each instruction leaves when it takes no fault -/

/-- The state an instruction leaves when it takes no fault, up to the value it writes (rules of 40_alu.md, 41_stack_control.md
and 42_simple.md). -/
def ExecEffect (i : Instr) (s t : State) : Prop :=
  match i with
  | .call a => ∃ ha : a.toNat < 8, s.pc + 2 ≤ 255 ∧
      t = (s.decSp.storeTop (BitVec.ofNat 8 (s.pc + 2))).jump (s.decSp.reg ⟨a.toNat, ha⟩)
  | .ret => t = s.incSp.jump s.top
  | .jmp a => ∃ ha : a.toNat < 8, t = s.jump (s.reg ⟨a.toNat, ha⟩)
  | .jeq a => ∃ ha : a.toNat < 8, t = if s.fl.E then s.jump (s.reg ⟨a.toNat, ha⟩) else s.advance 2
  | .jne a => ∃ ha : a.toNat < 8, t = if !s.fl.E then s.jump (s.reg ⟨a.toNat, ha⟩) else s.advance 2
  | .cmp _ _ => ∃ va vb, t = (s.setFlags (compareFlags Config.params.cmpSigned va vb)).advance 3
  | .add a _ | .sub a _ | .mul a _ | .mod a _ | .and a _ | .or a _ | .xor a _ | .shl a _ | .shr a _ | .ldi a _ =>
      ∃ v, ∃ ha : a.toNat < 8, t = (s.setReg ⟨a.toNat, ha⟩ v).advance 3
  | .not a => ∃ v, ∃ ha : a.toNat < 8, t = (s.setReg ⟨a.toNat, ha⟩ v).advance 2
  | .hlt => t = s.halt
  | .prn a => ∃ ha : a.toNat < 8, t = (s.emit (s.reg ⟨a.toNat, ha⟩)).advance 2
  | .push a => ∃ ha : a.toNat < 8, t = (s.decSp.storeTop (s.decSp.reg ⟨a.toNat, ha⟩)).advance 2
  | .pop a => ∃ ha : a.toNat < 8, t = (s.setReg ⟨a.toNat, ha⟩ s.top).incSp.advance 2

/-- If an instruction answers a next state, it took a fault, which left everything but the status and the record, or it had its
effect. -/
theorem exec_next {i : Instr} {s t : State} (h : exec i s = .next t) :
    (∃ c d, c ≠ FaultCause.none ∧ t = s.raise c d) ∨ ExecEffect i s t := by
  cases i
  case hlt => injection h with h; exact .inr h.symm
  case ret => injection h with h; exact .inr h.symm
  case call a =>
    rcases execCall_next h with ⟨_, _, h⟩ | h | h
    · exact .inl ⟨_, _, by simp, h⟩
    · exact .inr h
    · exact .inl ⟨_, _, by simp, h.2⟩
  case jmp | jeq | jne =>
    rcases branchIf_next h with h | h
    · exact .inr h
    · exact .inl ⟨_, _, by simp, h.2⟩
  case mod a b =>
    rcases execMod_next h with ⟨_, _, _, h⟩ | ⟨ha, hb, _, h⟩ | h | h
    · exact .inl ⟨_, _, by simp, h⟩
    · exact .inr ⟨_, ha, h⟩
    · exact .inl ⟨_, _, by simp, h.2⟩
    · exact .inl ⟨_, _, by simp, h.2.2⟩
  case cmp a b =>
    rcases execCmpWith_next h with ⟨ha, hb, h⟩ | h | h
    · exact .inr ⟨_, _, h⟩
    · exact .inl ⟨_, _, by simp, h.2⟩
    · exact .inl ⟨_, _, by simp, h.2.2⟩
  case not a =>
    rcases execNot_next h with ⟨ha, h⟩ | h
    · exact .inr ⟨_, ha, h⟩
    · exact .inl ⟨_, _, by simp, h.2⟩
  case ldi a =>
    rcases execLdi_next h with ⟨ha, h⟩ | h
    · exact .inr ⟨_, ha, h⟩
    · exact .inl ⟨_, _, by simp, h.2⟩
  case prn a =>
    rcases execPrn_next h with h | h
    · exact .inr h
    · exact .inl ⟨_, _, by simp, h.2⟩
  case push a =>
    rcases execPush_next h with h | h
    · exact .inr h
    · exact .inl ⟨_, _, by simp, h.2⟩
  case pop a =>
    rcases execPop_next h with h | h
    · exact .inr h
    · exact .inl ⟨_, _, by simp, h.2⟩
  all_goals
    rcases aluBinary_next h with ⟨ha, _, h⟩ | h | h
    · exact .inr ⟨_, ha, h⟩
    · exact .inl ⟨_, _, by simp, h.2⟩
    · exact .inl ⟨_, _, by simp, h.2.2⟩

/-! ## Every instruction answers a next state -/

theorem withReg_answers {s : State} {r : Byte} {k : Fin 8 → Result} (h : ∀ q, ∃ t, k q = .next t) :
    ∃ t, withReg s r k = .next t := by
  unfold withReg
  split
  · exact h _
  · exact ⟨_, rfl⟩

theorem withRegs_answers {s : State} {a b : Byte} {k : Fin 8 → Fin 8 → Result} (h : ∀ q r, ∃ t, k q r = .next t) :
    ∃ t, withRegs s a b k = .next t :=
  withReg_answers fun q => withReg_answers (h q)

/-- No instruction faults or refuses outside the state: each answers a next state (60_exceptions.md R146). -/
theorem exec_answers (i : Instr) (s : State) : ∃ t, exec i s = .next t := by
  cases i <;> simp only [exec, execAdd, execSub, execMul, execMod, execCmp, execCmpWith, execAnd, execOr, execXor, execNot,
    execShl, execShr, execCall, execRet, execJmp, execJeq, execJne, execHlt, execLdi, execPrn, execPush, execPop, aluBinary,
    branchIf]
  case hlt | ret => exact ⟨_, rfl⟩
  case mod a b =>
    refine withRegs_answers fun q r => ?_
    by_cases h : s.reg r = 0x00#8
    · exact ⟨_, if_pos h⟩
    · exact ⟨_, if_neg h⟩
  case call a =>
    refine withReg_answers fun q => ?_
    by_cases h : 255 < s.pc + 2
    · exact ⟨_, if_pos h⟩
    · exact ⟨_, if_neg h⟩
  case add | sub | mul | cmp | and | or | xor | shl | shr => exact withRegs_answers fun _ _ => ⟨_, rfl⟩
  case not | jmp | jeq | jne | ldi | prn | push | pop => exact withReg_answers fun _ => ⟨_, rfl⟩

end Sys2Proof.Machine
end

