-- ==== Sys2Proof/Laws/HostSide.lean ====
section
/-! SUPPORT. What an event and a run can do, said once: the step of an event is the core's step, at every value of the
parameters. -/

namespace Sys2Proof.Machine

theorem execWith_answers (p : Params) (i : Instr) (s : State) : ∃ t, execWith p i s = .next t := by
  by_cases h : ∃ a b, i = .cmp a b
  · obtain ⟨a, b, rfl⟩ := h
    simp only [execWith, execCmpWith, withRegs, withReg]
    split
    · split <;> exact ⟨_, rfl⟩
    · exact ⟨_, rfl⟩
  · have e : execWith p i s = exec i s := by
      cases i <;> first | rfl | exact absurd ⟨_, _, rfl⟩ h
    exact e ▸ exec_answers i s

/-- A step at any parameters answers a next state. -/
theorem stepWith_answers (p : Params) (s : State) : ∃ t, stepWith p s = .next t := by
  unfold stepWith
  split
  · split
    · exact ⟨_, rfl⟩
    · exact execWith_answers p _ s
  · exact ⟨s, rfl⟩

theorem steppedWith_eq {p : Params} {s t : State} (h : stepWith p s = .next t) : s.steppedWith p = t := by
  simp [State.steppedWith, h]

theorem stepped_eq {s t : State} (h : step s = .next t) : s.stepped = t :=
  steppedWith_eq ((stepWith_default s).trans h)

theorem steppedWith_not_running {p : Params} {s : State} (h : s.status ≠ .running) : s.steppedWith p = s :=
  steppedWith_eq (by simp [stepWith, h])

@[simp] theorem handle_rst (s : State) : s.handle .rst = State.reset := rfl
@[simp] theorem handle_load (s : State) (a v : Byte) : s.handle (.load a v) = s.loadByte a v := rfl
@[simp] theorem handle_start (s : State) : s.handle .start = s.start := rfl
@[simp] theorem handle_step (s : State) : s.handle .step = s.stepped := rfl

/-- What the output port presents, through the event's next state. -/
theorem ports_outData (s : State) (e : Event) :
    (s.ports e).outData = if e = .step then ((s.handle e).out.drop s.out.length).head? else none := rfl

@[simp] theorem stepsWith_zero (p : Params) (s : State) : s.stepsWith p 0 = s := rfl
@[simp] theorem stepsWith_succ (p : Params) (s : State) (k : Nat) :
    s.stepsWith p (k + 1) = (s.steppedWith p).stepsWith p k := rfl

end Sys2Proof.Machine
end

