-- ==== Sys2Proof/Laws/PerInstr.lean ====
section
/-! SUPPORT. Facts of each instruction as syntax, one lemma per constructor. -/

/-- The encoding of an instruction has the width its opcode's operand count gives, 1 to 3 bytes (30_encoding.md R60, R62), and
the opcode byte it starts with decodes to its mnemonic (30_encoding.md R65, R66). -/
def Sys2Proof.Laws.EncodeWidth.Statement (i : Sys2Proof.Instr) : Prop :=
  (Sys2Proof.encode i).length = i.width ∧ 1 ≤ i.width ∧ i.width ≤ Sys2Proof.longestInstr ∧
    Sys2Proof.decodeOp i.mnemonic.opcode = .ok i.mnemonic

theorem Sys2Proof.Laws.EncodeWidth.call (a : Sys2Proof.Byte) : Sys2Proof.Laws.EncodeWidth.Statement (.call a) :=
  ⟨by show 2 = 1 + Sys2Proof.opCount 0x50#8; decide, (Sys2Proof.width_bounds _).1, (Sys2Proof.width_bounds _).2, Sys2Proof.decodeOp_opcode _⟩

theorem Sys2Proof.Laws.EncodeWidth.ret : Sys2Proof.Laws.EncodeWidth.Statement (.ret) :=
  ⟨by show 1 = 1 + Sys2Proof.opCount 0x11#8; decide, (Sys2Proof.width_bounds _).1, (Sys2Proof.width_bounds _).2, Sys2Proof.decodeOp_opcode _⟩

theorem Sys2Proof.Laws.EncodeWidth.jmp (a : Sys2Proof.Byte) : Sys2Proof.Laws.EncodeWidth.Statement (.jmp a) :=
  ⟨by show 2 = 1 + Sys2Proof.opCount 0x54#8; decide, (Sys2Proof.width_bounds _).1, (Sys2Proof.width_bounds _).2, Sys2Proof.decodeOp_opcode _⟩

theorem Sys2Proof.Laws.EncodeWidth.jeq (a : Sys2Proof.Byte) : Sys2Proof.Laws.EncodeWidth.Statement (.jeq a) :=
  ⟨by show 2 = 1 + Sys2Proof.opCount 0x55#8; decide, (Sys2Proof.width_bounds _).1, (Sys2Proof.width_bounds _).2, Sys2Proof.decodeOp_opcode _⟩

theorem Sys2Proof.Laws.EncodeWidth.jne (a : Sys2Proof.Byte) : Sys2Proof.Laws.EncodeWidth.Statement (.jne a) :=
  ⟨by show 2 = 1 + Sys2Proof.opCount 0x56#8; decide, (Sys2Proof.width_bounds _).1, (Sys2Proof.width_bounds _).2, Sys2Proof.decodeOp_opcode _⟩

theorem Sys2Proof.Laws.EncodeWidth.add (a b : Sys2Proof.Byte) : Sys2Proof.Laws.EncodeWidth.Statement (.add a b) :=
  ⟨by show 3 = 1 + Sys2Proof.opCount 0xA0#8; decide, (Sys2Proof.width_bounds _).1, (Sys2Proof.width_bounds _).2, Sys2Proof.decodeOp_opcode _⟩

theorem Sys2Proof.Laws.EncodeWidth.sub (a b : Sys2Proof.Byte) : Sys2Proof.Laws.EncodeWidth.Statement (.sub a b) :=
  ⟨by show 3 = 1 + Sys2Proof.opCount 0xA1#8; decide, (Sys2Proof.width_bounds _).1, (Sys2Proof.width_bounds _).2, Sys2Proof.decodeOp_opcode _⟩

theorem Sys2Proof.Laws.EncodeWidth.mul (a b : Sys2Proof.Byte) : Sys2Proof.Laws.EncodeWidth.Statement (.mul a b) :=
  ⟨by show 3 = 1 + Sys2Proof.opCount 0xA2#8; decide, (Sys2Proof.width_bounds _).1, (Sys2Proof.width_bounds _).2, Sys2Proof.decodeOp_opcode _⟩

theorem Sys2Proof.Laws.EncodeWidth.mod (a b : Sys2Proof.Byte) : Sys2Proof.Laws.EncodeWidth.Statement (.mod a b) :=
  ⟨by show 3 = 1 + Sys2Proof.opCount 0xA4#8; decide, (Sys2Proof.width_bounds _).1, (Sys2Proof.width_bounds _).2, Sys2Proof.decodeOp_opcode _⟩

theorem Sys2Proof.Laws.EncodeWidth.cmp (a b : Sys2Proof.Byte) : Sys2Proof.Laws.EncodeWidth.Statement (.cmp a b) :=
  ⟨by show 3 = 1 + Sys2Proof.opCount 0xA7#8; decide, (Sys2Proof.width_bounds _).1, (Sys2Proof.width_bounds _).2, Sys2Proof.decodeOp_opcode _⟩

theorem Sys2Proof.Laws.EncodeWidth.and (a b : Sys2Proof.Byte) : Sys2Proof.Laws.EncodeWidth.Statement (.and a b) :=
  ⟨by show 3 = 1 + Sys2Proof.opCount 0xA8#8; decide, (Sys2Proof.width_bounds _).1, (Sys2Proof.width_bounds _).2, Sys2Proof.decodeOp_opcode _⟩

theorem Sys2Proof.Laws.EncodeWidth.or (a b : Sys2Proof.Byte) : Sys2Proof.Laws.EncodeWidth.Statement (.or a b) :=
  ⟨by show 3 = 1 + Sys2Proof.opCount 0xAA#8; decide, (Sys2Proof.width_bounds _).1, (Sys2Proof.width_bounds _).2, Sys2Proof.decodeOp_opcode _⟩

theorem Sys2Proof.Laws.EncodeWidth.xor (a b : Sys2Proof.Byte) : Sys2Proof.Laws.EncodeWidth.Statement (.xor a b) :=
  ⟨by show 3 = 1 + Sys2Proof.opCount 0xAB#8; decide, (Sys2Proof.width_bounds _).1, (Sys2Proof.width_bounds _).2, Sys2Proof.decodeOp_opcode _⟩

theorem Sys2Proof.Laws.EncodeWidth.not (a : Sys2Proof.Byte) : Sys2Proof.Laws.EncodeWidth.Statement (.not a) :=
  ⟨by show 2 = 1 + Sys2Proof.opCount 0x69#8; decide, (Sys2Proof.width_bounds _).1, (Sys2Proof.width_bounds _).2, Sys2Proof.decodeOp_opcode _⟩

theorem Sys2Proof.Laws.EncodeWidth.shl (a b : Sys2Proof.Byte) : Sys2Proof.Laws.EncodeWidth.Statement (.shl a b) :=
  ⟨by show 3 = 1 + Sys2Proof.opCount 0xAC#8; decide, (Sys2Proof.width_bounds _).1, (Sys2Proof.width_bounds _).2, Sys2Proof.decodeOp_opcode _⟩

theorem Sys2Proof.Laws.EncodeWidth.shr (a b : Sys2Proof.Byte) : Sys2Proof.Laws.EncodeWidth.Statement (.shr a b) :=
  ⟨by show 3 = 1 + Sys2Proof.opCount 0xAD#8; decide, (Sys2Proof.width_bounds _).1, (Sys2Proof.width_bounds _).2, Sys2Proof.decodeOp_opcode _⟩

theorem Sys2Proof.Laws.EncodeWidth.hlt : Sys2Proof.Laws.EncodeWidth.Statement (.hlt) :=
  ⟨by show 1 = 1 + Sys2Proof.opCount 0x01#8; decide, (Sys2Proof.width_bounds _).1, (Sys2Proof.width_bounds _).2, Sys2Proof.decodeOp_opcode _⟩

theorem Sys2Proof.Laws.EncodeWidth.ldi (a b : Sys2Proof.Byte) : Sys2Proof.Laws.EncodeWidth.Statement (.ldi a b) :=
  ⟨by show 3 = 1 + Sys2Proof.opCount 0x82#8; decide, (Sys2Proof.width_bounds _).1, (Sys2Proof.width_bounds _).2, Sys2Proof.decodeOp_opcode _⟩

theorem Sys2Proof.Laws.EncodeWidth.prn (a : Sys2Proof.Byte) : Sys2Proof.Laws.EncodeWidth.Statement (.prn a) :=
  ⟨by show 2 = 1 + Sys2Proof.opCount 0x47#8; decide, (Sys2Proof.width_bounds _).1, (Sys2Proof.width_bounds _).2, Sys2Proof.decodeOp_opcode _⟩

theorem Sys2Proof.Laws.EncodeWidth.push (a : Sys2Proof.Byte) : Sys2Proof.Laws.EncodeWidth.Statement (.push a) :=
  ⟨by show 2 = 1 + Sys2Proof.opCount 0x45#8; decide, (Sys2Proof.width_bounds _).1, (Sys2Proof.width_bounds _).2, Sys2Proof.decodeOp_opcode _⟩

theorem Sys2Proof.Laws.EncodeWidth.pop (a : Sys2Proof.Byte) : Sys2Proof.Laws.EncodeWidth.Statement (.pop a) :=
  ⟨by show 2 = 1 + Sys2Proof.opCount 0x46#8; decide, (Sys2Proof.width_bounds _).1, (Sys2Proof.width_bounds _).2, Sys2Proof.decodeOp_opcode _⟩
end

