-- ==== Sys2Proof/Tests/Slice0.lean ====
section
/-! SUPPORT. The model's own tests. Expected results come from 95_test_vectors.md and from the rules named, never from the
model; the `witness_` theorems show that the hypotheses of the obligations can be met. -/

namespace Sys2Proof.Tests

open Sys2Proof Sys2Proof.Machine Sys2Proof.Safety

/-! ## Helpers -/

/-- The next state of an answer. -/
def nextOf (r : Result) : Option State :=
  match r with
  | .next t => some t
  | .fault _ => none
  | .refused _ => none

/-- A running core with some bytes at the pc, some registers and some other cells set; the rest as at launch. -/
def mk (pc : Nat) (bytes : List Byte) (regs : List (Nat × Byte)) (cells : List (Nat × Byte)) : State :=
  { State.reset with
    mem := (cells.foldl (fun m c => m.write c.1 c.2) State.reset.mem).place pc bytes
    x := regs.foldl (fun x r => x.setIfInBounds r.1 r.2) State.reset.x
    pc := pc
    status := .running }

/-- What one step from a state gives, seen through a view. -/
def after {α : Type} (s : State) (view : State → α) : Option α := (nextOf (step s)).map view

/-- The view of a fault: status, cause, pc and detail. -/
def faultView (s : State) : Status × FaultCause × Nat × Nat := (s.status, s.fault.cause, s.fault.pc, s.fault.detail)

/-- The view of a fault with what must not have moved. -/
def preciseView (s : State) : (FaultCause × Nat × Nat) × Nat × Byte :=
  ((s.fault.cause, s.fault.pc, s.fault.detail), s.pc, s.x[7])

/-- The flags as three bits. -/
def flagsView (s : State) : Bool × Bool × Bool × Nat := (s.fl.L, s.fl.G, s.fl.E, s.pc)

/-! ## Decoding: words written out bit by bit from 30_encoding.md R65 and R70 -/

theorem test_decode_control_flow :
    decode [0b01010000#8, 0b00000001#8] = .ok (.call 1#8, []) ∧
    decode [0b00010001#8] = .ok (.ret, []) ∧
    decode [0b01010100#8, 0b00000010#8] = .ok (.jmp 2#8, []) ∧
    decode [0b01010101#8, 0b00000011#8] = .ok (.jeq 3#8, []) ∧
    decode [0b01010110#8, 0b00000100#8] = .ok (.jne 4#8, []) := ⟨rfl, rfl, rfl, rfl, rfl⟩

theorem test_decode_arithmetic :
    decode [0b10100000#8, 0b00000010#8, 0b00000111#8] = .ok (.add 2#8 7#8, []) ∧
    decode [0b10100001#8, 0b00000000#8, 0b00000001#8] = .ok (.sub 0#8 1#8, []) ∧
    decode [0b10100010#8, 0b00000001#8, 0b00000000#8] = .ok (.mul 1#8 0#8, []) ∧
    decode [0b10100100#8, 0b00000011#8, 0b00000101#8] = .ok (.mod 3#8 5#8, []) ∧
    decode [0b10100111#8, 0b00000110#8, 0b00000001#8] = .ok (.cmp 6#8 1#8, []) := ⟨rfl, rfl, rfl, rfl, rfl⟩

theorem test_decode_logic :
    decode [0b10101000#8, 0b00000000#8, 0b00000001#8] = .ok (.and 0#8 1#8, []) ∧
    decode [0b10101010#8, 0b00000010#8, 0b00000001#8] = .ok (.or 2#8 1#8, []) ∧
    decode [0b10101011#8, 0b00000010#8, 0b00000000#8] = .ok (.xor 2#8 0#8, []) ∧
    decode [0b01101001#8, 0b00000111#8] = .ok (.not 7#8, []) ∧
    decode [0b10101100#8, 0b00000000#8, 0b00000001#8] = .ok (.shl 0#8 1#8, []) ∧
    decode [0b10101101#8, 0b00000010#8, 0b00000001#8] = .ok (.shr 2#8 1#8, []) := ⟨rfl, rfl, rfl, rfl, rfl, rfl⟩

theorem test_decode_simple :
    decode [0b00000001#8] = .ok (.hlt, []) ∧
    decode [0b10000010#8, 0b00000011#8, 0b11111111#8] = .ok (.ldi 3#8 255#8, []) ∧
    decode [0b01000111#8, 0b00000000#8] = .ok (.prn 0#8, []) ∧
    decode [0b01000101#8, 0b00000010#8] = .ok (.push 2#8, []) ∧
    decode [0b01000110#8, 0b00000101#8] = .ok (.pop 5#8, []) := ⟨rfl, rfl, rfl, rfl, rfl⟩

/-- 95_test_vectors.md section 2.1: rejected bytes under their class's name. -/
theorem test_decode_rejects :
    decodeOp 0x00#8 = .error (.decodeError 0x00#8) ∧ decodeOp 0x02#8 = .error (.decodeError 0x02#8) ∧
    decodeOp 0x10#8 = .error (.decodeError 0x10#8) ∧ decodeOp 0x20#8 = .error (.unsupportedAluOp 0x20#8) ∧
    decodeOp 0x30#8 = .error (.decodeError 0x30#8) ∧ decodeOp 0x65#8 = .error (.unsupportedAluOp 0x65#8) ∧
    decodeOp 0x80#8 = .error (.decodeError 0x80#8) ∧ decodeOp 0xA3#8 = .error (.unsupportedAluOp 0xA3#8) ∧
    decodeOp 0xB0#8 = .error (.decodeError 0xB0#8) ∧ decodeOp 0xC0#8 = .error (.decodeError 0xC0#8) ∧
    decodeOp 0xE0#8 = .error (.unsupportedAluOp 0xE0#8) ∧ decodeOp 0xFF#8 = .error (.decodeError 0xFF#8) :=
  ⟨rfl, rfl, rfl, rfl, rfl, rfl, rfl, rfl, rfl, rfl, rfl, rfl⟩

/-- Bytes that end too early are rejected by name (30_encoding.md R67). -/
theorem test_decode_short :
    decode [] = .error .noOpcode ∧ decode [0x82#8, 0x00#8] = .error (.missingOperand 0x82#8) ∧
    decode [0x47#8] = .error (.missingOperand 0x47#8) := ⟨rfl, rfl, rfl⟩

/-- Widths of 30_encoding.md R62: HLT 1, PUSH and NOT 2, LDI and ADD 3. -/
theorem test_widths :
    Instr.hlt.width = 1 ∧ (Instr.push 0#8).width = 2 ∧ (Instr.not 0#8).width = 2 ∧ (Instr.ldi 0#8 0#8).width = 3 ∧
    (Instr.add 0#8 0#8).width = 3 := by decide

/-- A table word: bits 7..0 the opcode, 15..8 operand a, 23..16 operand b. -/
theorem test_table_word :
    decodeTableWord 24 0x0102A0 = some (.add 2#8 1#8) ∧ decodeTableWord 16 0xFF0747 = some (.prn 7#8) ∧
    decodeTableWord 8 0x11 = some .ret ∧ decodeTableWord 8 0x02 = none := ⟨rfl, rfl, rfl, rfl⟩

/-- A placed table word is what the very next step runs, right after reset: LDI R3, 255. -/
theorem test_with_fetch_word :
    after (State.reset.withFetchWord 24 0xFF0382) (fun t => (t.x[3], t.pc, t.status)) = some (0xFF#8, 3, .running) := by
  decide

/-! ## Well-formedness: an ill-formed term for each check -/

theorem test_wf_good : (Instr.add 0#8 7#8).wf = true ∧ (Instr.ldi 7#8 255#8).wf = true ∧ Instr.hlt.wf = true := by decide

theorem test_wf_refuses_operand_a :
    (Instr.add 8#8 0#8).wf = false ∧ (Instr.not 8#8).wf = false ∧ (Instr.ldi 8#8 0#8).wf = false ∧
    (Instr.push 255#8).wf = false ∧ (Instr.jeq 16#8).wf = false := by decide

theorem test_wf_refuses_operand_b :
    (Instr.add 0#8 8#8).wf = false ∧ (Instr.cmp 7#8 128#8).wf = false ∧ (Instr.shl 0#8 9#8).wf = false := by decide

/-! ## ALU, one step each (95_test_vectors.md sections 2.2, E3, E4) -/

theorem test_add_wraps :
    after (mk 0 [0xA0, 0, 1] [(0, 200), (1, 100)] []) (fun t => (t.x[0], t.x[1], t.pc)) = some (44#8, 100#8, 3) := by decide

theorem test_add_same_register : after (mk 0 [0xA0, 0, 0] [(0, 0x81)] []) (fun t => t.x[0]) = some 0x02#8 := by decide

theorem test_sub_borrows :
    after (mk 0 [0xA1, 0, 1] [(0, 5), (1, 7)] []) (fun t => (t.x[0], t.x[1], t.pc)) = some (0xFE#8, 7#8, 3) := by decide

/-- With SUB_DECODES false the byte is an unsupported ALU operation (program P10). -/
theorem test_sub_undecoded :
    (nextOf (stepWith { Config.params with subDecodes := false } (mk 6 [0xA1, 0, 1] [] []))).map faultView =
      some (.faulted, .unsupportedAluOp, 6, 0xA1) := by decide

theorem test_mul_wraps : after (mk 0 [0xA2, 0, 1] [(0, 255), (1, 255)] []) (fun t => t.x[0]) = some 1#8 := by decide

theorem test_mul_same_register : after (mk 0 [0xA2, 0, 0] [(0, 15)] []) (fun t => t.x[0]) = some 225#8 := by decide

theorem test_mod :
    after (mk 0 [0xA4, 0, 1] [(0, 200), (1, 7)] []) (fun t => (t.x[0], t.pc, t.status)) = some (4#8, 3, .running) := by decide

theorem test_mod_by_zero :
    after (mk 3 [0xA4, 0, 1] [(0, 10)] []) (fun t => (faultView t, t.x[0], t.pc)) =
      some ((.faulted, .divisionByZero, 3, 1), 10#8, 3) := by decide

theorem test_and : after (mk 0 [0xA8, 0, 1] [(0, 0xCA), (1, 0xAC)] []) (fun t => (t.x[0], t.pc)) = some (0x88#8, 3) := by decide

theorem test_or : after (mk 0 [0xAA, 0, 1] [(0, 0xCA), (1, 0xAC)] []) (fun t => (t.x[0], t.pc)) = some (0xEE#8, 3) := by decide

theorem test_xor : after (mk 0 [0xAB, 0, 1] [(0, 0xCA), (1, 0xAC)] []) (fun t => (t.x[0], t.pc)) = some (0x66#8, 3) := by decide

theorem test_xor_same_register : after (mk 0 [0xAB, 2, 2] [(2, 0xA5)] []) (fun t => t.x[2]) = some 0#8 := by decide

theorem test_not : after (mk 0 [0x69, 0] [(0, 0x0F)] []) (fun t => (t.x[0], t.pc)) = some (0xF0#8, 2) := by decide

theorem test_not_sp : after (mk 0 [0x69, 7] [] []) (fun t => t.x[7]) = some 0x0B#8 := by decide

theorem test_shl : after (mk 0 [0xAC, 0, 1] [(0, 0x93), (1, 2)] []) (fun t => (t.x[0], t.pc)) = some (0x4C#8, 3) := by decide

theorem test_shl_whole_amount : after (mk 0 [0xAC, 0, 1] [(0, 1), (1, 8)] []) (fun t => t.x[0]) = some 0#8 := by decide

theorem test_shr_logical : after (mk 0 [0xAD, 0, 1] [(0, 0x80), (1, 1)] []) (fun t => (t.x[0], t.pc)) = some (0x40#8, 3) := by
  decide

theorem test_shr_whole_amount : after (mk 0 [0xAD, 0, 1] [(0, 0x80), (1, 8)] []) (fun t => t.x[0]) = some 0#8 := by decide

/-- Example E9 and the sign-bit row: unsigned order, exactly one flag. -/
theorem test_cmp :
    after (mk 0 [0xA7, 0, 1] [(0, 3), (1, 9)] []) flagsView = some (true, false, false, 3) ∧
    after (mk 0 [0xA7, 0, 1] [(0, 9), (1, 3)] []) flagsView = some (false, true, false, 3) ∧
    after (mk 0 [0xA7, 0, 1] [(0, 5), (1, 5)] []) flagsView = some (false, false, true, 3) ∧
    after (mk 0 [0xA7, 0, 1] [(0, 0x80), (1, 0x7F)] []) flagsView = some (false, true, false, 3) := by decide

/-- With CMP_SIGNED, 0x80 is below 0x7F and 0xFF below 0x00, and 0x7F above 0x01. -/
theorem test_cmp_signed :
    let p := { Config.params with cmpSigned := true }
    (nextOf (stepWith p (mk 0 [0xA7, 0, 1] [(0, 0x80), (1, 0x7F)] []))).map flagsView = some (true, false, false, 3) ∧
    (nextOf (stepWith p (mk 0 [0xA7, 0, 1] [(0, 0xFF), (1, 0x00)] []))).map flagsView = some (true, false, false, 3) ∧
    (nextOf (stepWith p (mk 0 [0xA7, 0, 1] [(0, 0x7F), (1, 0x01)] []))).map flagsView = some (false, true, false, 3) := by
  decide

/-- The debugger's view of the flags, `0b00000LGE` (10_state.md R29). -/
theorem test_flags_byte :
    Flags.toByte { L := true, G := false, E := false } = 4#8 ∧ Flags.toByte { L := false, G := true, E := false } = 2#8 ∧
    Flags.toByte { L := false, G := false, E := true } = 1#8 := by decide

/-! ## Stack and control flow (95_test_vectors.md section 2.3) -/

theorem test_push_wraps :
    after (mk 0 [0x45, 0] [(0, 0xAA), (7, 0)] []) (fun t => (t.x[7], t.mem.read 0xFF, t.pc)) = some (0xFF#8, 0xAA#8, 2) := by
  decide

theorem test_push_sp :
    after (mk 0 [0x45, 7] [] []) (fun t => (t.x[7], t.mem.read 0xF3)) = some (0xF3#8, 0xF3#8) := by decide

theorem test_pop_keeps_cell :
    after (mk 0 [0x46, 1] [(7, 0xF3)] [(0xF3, 0x2A)]) (fun t => (t.x[1], t.x[7], t.mem.read 0xF3, t.pc)) =
      some (0x2A#8, 0xF4#8, 0x2A#8, 2) := by decide

theorem test_pop_sp :
    after (mk 0 [0x46, 7] [] [(0xF4, 0x40)]) (fun t => t.x[7]) = some 0x41#8 ∧
    after (mk 0 [0x46, 7] [] []) (fun t => t.x[7]) = some 0x01#8 ∧
    after (mk 0 [0x46, 1] [(7, 0xFF)] [(0xFF, 0x11)]) (fun t => (t.x[1], t.x[7])) = some (0x11#8, 0x00#8) := by decide

theorem test_call :
    after (mk 0x10 [0x50, 1] [(1, 0x30)] []) (fun t => (t.x[7], t.mem.read 0xF3, t.pc)) = some (0xF3#8, 0x12#8, 0x30) ∧
    after (mk 253 [0x50, 1] [(1, 0x30)] []) (fun t => (t.x[7], t.mem.read 0xF3, t.pc)) = some (0xF3#8, 0xFF#8, 0x30) ∧
    after (mk 0 [0x50, 7] [] []) (fun t => (t.x[7], t.mem.read 0xF3, t.pc)) = some (0xF3#8, 0x02#8, 0xF3) := by decide

theorem test_call_return_address :
    after (mk 254 [0x50, 0] [] []) (fun t => (preciseView t, t.mem.read 0xF3)) =
      some (((.addressingReturnAddress, 254, 256), 254, 0xF4#8), 0x00#8) := by decide

theorem test_ret :
    after (mk 0x30 [0x11] [(7, 0xF3)] [(0xF3, 0x12)]) (fun t => (t.pc, t.x[7])) = some (0x12, 0xF4#8) ∧
    after (mk 0 [0x11] [(7, 0xFF)] [(0xFF, 0x07)]) (fun t => (t.pc, t.x[7])) = some (0x07, 0x00#8) := by decide

theorem test_jmp : after (mk 0 [0x54, 2] [(2, 0xFF)] []) (fun t => (t.pc, t.x[7])) = some (0xFF, 0xF4#8) := by decide

theorem test_jeq :
    after { mk 8 [0x55, 3] [(3, 0x20)] [] with fl := { L := false, G := false, E := true } } (fun t => t.pc) = some 0x20 ∧
    after (mk 8 [0x55, 3] [(3, 0x20)] []) (fun t => t.pc) = some 0x0A := by decide

theorem test_jne :
    after { mk 8 [0x56, 3] [(3, 0x20)] [] with fl := { L := false, G := false, E := true } } (fun t => t.pc) = some 0x0A ∧
    after (mk 8 [0x56, 3] [(3, 0x20)] []) (fun t => t.pc) = some 0x20 := by decide

/-! ## Simple operations (95_test_vectors.md E1, E8) -/

theorem test_ldi : after (mk 0 [0x82, 7, 0x10] [] []) (fun t => (t.x[7], t.pc)) = some (0x10#8, 3) := by decide

theorem test_prn :
    after { mk 3 [0x47, 0] [(0, 8)] [] with out := [1] } (fun t => (t.out, t.pc, t.x[0])) = some ([1#8, 8#8], 5, 8#8) := by decide

theorem test_hlt : after (mk 5 [0x01] [] []) (fun t => (t.status, t.pc)) = some (.halted, 5) := by decide

/-! ## Faults and their order (95_test_vectors.md section 2.5) -/

theorem test_fault_fetch : after { mk 0 [] [] [] with pc := 256 } preciseView = some ((.addressingFetch, 256, 256), 256, 0xF4#8) := by
  decide

theorem test_fault_decode :
    after (mk 255 [] [] []) preciseView = some ((.decodeError, 255, 0x00), 255, 0xF4#8) ∧
    after (mk 254 [0xA3] [] []) preciseView = some ((.unsupportedAluOp, 254, 0xA3), 254, 0xF4#8) := by decide

theorem test_fault_operand :
    after (mk 254 [0xA4, 0] [] []) preciseView = some ((.addressingOperand, 254, 256), 254, 0xF4#8) ∧
    after (mk 255 [0x47] [] []) preciseView = some ((.addressingOperand, 255, 256), 255, 0xF4#8) := by decide

theorem test_fault_register :
    after (mk 0 [0xA4, 0, 9] [] []) preciseView = some ((.addressingRegister, 0, 9), 0, 0xF4#8) ∧
    after (mk 254 [0x50, 9] [] []) preciseView = some ((.addressingRegister, 254, 9), 254, 0xF4#8) := by decide

theorem test_fault_register_order :
    after (mk 0 [0xA7, 0x0C, 0x0B] [] []) preciseView = some ((.addressingRegister, 0, 12), 0, 0xF4#8) ∧
    after (mk 0 [0x55, 8] [] []) preciseView = some ((.addressingRegister, 0, 8), 0, 0xF4#8) := by decide

/-- A faulted core keeps its record; a halted or idle one does nothing (10_state.md R30). -/
theorem test_no_step :
    after { mk 0 [0x82, 0, 1] [] [] with status := .faulted } (fun t => (t.pc, t.x[0], t.status)) = some (0, 0#8, .faulted) ∧
    after { mk 0 [0x82, 0, 1] [] [] with status := .halted } (fun t => (t.pc, t.status)) = some (0, .halted) ∧
    after State.reset (fun t => (t.pc, t.status)) = some (0, .idle) := by decide

/-! ## Memory -/

/-- Read after write, and writing what an unlisted address reads as removes the entry. -/
theorem test_memory :
    let m : Memory := Memory.write (Memory.write (Memory.write [] 9 1) 4 2) 200 3
    m = [(4, 2), (9, 1), (200, 3)] ∧ m.wf = true ∧ m.read 9 = 1#8 ∧ m.read 5 = 0#8 ∧ m.write 9 0 = [(4, 2), (200, 3)] := by
  decide

/-- What is no canonical memory: a zero entry, a cell past 255, addresses that do not rise. -/
theorem test_memory_ill_formed :
    Memory.wf [(4, 0)] = false ∧ Memory.wf [(256, 1)] = false ∧ Memory.wf [(5, 1), (4, 1)] = false ∧
    Memory.wf [(4, 1), (4, 2)] = false := by decide

/-- The reset memory is canonical. -/
theorem test_memory_reset : State.reset.mem.wf = true := by decide

/-! ## Reset, load, start, ports and files (95_test_vectors.md section 2.6) -/

/-- The events that are ignored: a load while running, a start after a halt; a load while idle changes memory alone. -/
theorem test_events :
    ((mk 0 [] [] []).handle (.load 5 9)).mem.read 5 = 0#8 ∧
    ({ mk 0 [] [] [] with status := .halted }.handle .start).status = .halted ∧
    (State.reset.handle (.load 255 9)).mem = [(255, 9#8)] ∧ (State.reset.handle (.load 255 9)).status = .idle ∧
    (State.reset.handle .start).status = .running ∧ (mk 7 [] [(0, 1)] []).handle .rst = State.reset := by decide

/-- The image of example E1 as a file, with a comment, a blank line and white space, and the launch it gives. -/
theorem test_image :
    parseImage (some ["10000010 # LDI R0,8".toList, "00000000".toList, " 00001000\r".toList, "# note".toList, [],
      "01000111".toList, "00000000".toList, "1".toList]) = .ok [0x82#8, 0#8, 8#8, 0x47#8, 0#8, 1#8] := by rfl

theorem test_image_errors :
    parseImage none = .error .fileMissing ∧ parseImage (some ["12".toList]) = .error .badLine ∧
    parseImage (some ["100000000".toList]) = .error .literalTooLarge ∧
    (boot (some ["x".toList])).2 = some .badLine ∧ (boot (some ["x".toList])).1.status = .idle := ⟨rfl, rfl, rfl, rfl, rfl⟩

theorem test_launch :
    (launch [0x82, 0, 8]).mem = [(0, 0x82#8), (2, 8#8)] ∧ (launch [0x82, 0, 8]).status = .running ∧
    (launch [0x82, 0, 8]).pc = 0 := by decide

/-- The ports of the step that executes PRN and of one that does not; the record in 3, 9 and 9 bits. -/
theorem test_ports :
    ((mk 3 [0x47, 0] [(0, 8)] []).ports .step).outData = some 8#8 ∧
    ((mk 5 [0x01] [] []).ports .step).outData = none ∧
    ((mk 254 [0x50, 0] [] []).ports .step).faultCause = 7#3 ∧
    ((mk 254 [0x50, 0] [] []).ports .step).faultPc = 254#9 ∧
    ((mk 254 [0x50, 0] [] []).ports .step).faultDetail = 256#9 := by decide

/-- The host prints 8 and 128 in decimal, each with a newline (42_simple.md R134). -/
theorem test_render : renderOut [8, 128] = ['8', '\n', '1', '2', '8', '\n'] := by decide

/-- A ceiling of one step on HLT ends the run; on a jump to itself it is exceeded (70_reset_and_hazards.md R182). -/
theorem test_harness :
    harness 1 (mk 5 [0x01] [] []) = .stopped { mk 5 [0x01] [] [] with status := .halted } ∧
    harness 1 (mk 0 [0x54, 2] [] []) = .budgetExceeded (mk 0 [0x54, 2] [] []) ∧
    harnessAt Config.params (mk 5 [0x01] [] []) = none := by decide

/-- Program P10 at its SUB with SUB_DECODES false: the harness finds the core Faulted, not still running. -/
theorem test_harness_sub_undecoded :
    harnessAt { subDecodes := false, cmpSigned := false, fuel := some 1 } (mk 6 [0xA1, 0, 1] [(0, 5), (1, 7)] []) =
      some (.stopped (faultedAt (mk 6 [0xA1, 0, 1] [(0, 5), (1, 7)] []) .unsupportedAluOp 0xA1)) := by decide

/-- CMP of 0x80 and 0x7F under a harness with CMP_SIGNED sets L, without it G. -/
theorem test_harness_cmp_signed :
    harnessAt { subDecodes := true, cmpSigned := true, fuel := some 1 } (mk 0 [0xA7, 0, 1] [(0, 0x80), (1, 0x7F)] []) =
      some (.budgetExceeded { mk 0 [0xA7, 0, 1] [(0, 0x80), (1, 0x7F)] [] with
        pc := 3, fl := { L := true, G := false, E := false } }) ∧
    harnessAt { subDecodes := true, cmpSigned := false, fuel := some 1 } (mk 0 [0xA7, 0, 1] [(0, 0x80), (1, 0x7F)] []) =
      some (.budgetExceeded { mk 0 [0xA7, 0, 1] [(0, 0x80), (1, 0x7F)] [] with
        pc := 3, fl := { L := false, G := true, E := false } }) := by decide

/-- A file that is bad in its second line loads nothing, not even its first (the model's choice, log entry 15). -/
theorem test_boot_part_way : boot (some [['1'], ['2']]) = (State.reset, some .badLine) := by decide

/-- Assembler lines of 30_encoding.md R73 and of the programs of 95_test_vectors.md, and lines that are none. -/
theorem test_assemble :
    assemble "LDI R0, 8".toList = some (.ldi 0#8 8#8) ∧ assemble "LDI SP, 0xF4".toList = some (.ldi 7#8 0xF4#8) ∧
    assemble "LDI R1,0b101".toList = some (.ldi 1#8 5#8) ∧ assemble "ADD R0, R1".toList = some (.add 0#8 1#8) ∧
    assemble "NOT R2".toList = some (.not 2#8) ∧ assemble "HLT".toList = some .hlt ∧
    assemble "LDI R0, 256".toList = none ∧ assemble "ADD R0".toList = none ∧ assemble "JMP R8".toList = none ∧
    assemble "ADDI R0, R1".toList = none := by decide

theorem test_asm_text :
    asmText (.ldi 0#8 8#8) = "LDI R0, 8".toList ∧ asmText (.pop 7#8) = "POP R7".toList ∧ asmText .ret = "RET".toList := by
  decide

/-! ## Witnesses: the hypotheses of the obligations, met together -/

theorem witness_DecodedBytesAreTheEncoding :
    decode [0xA0#8, 7#8, 255#8, 1#8] = .ok (.add 7#8 255#8, [1#8]) ∧ decode [0x11#8] = .ok (.ret, []) := ⟨rfl, rfl⟩

/-- An ADD that ends at the last cell, and a HLT in it. -/
theorem witness_StepRunsDecodedInstruction :
    ((mk 253 [0xA0, 0, 7] [] []).status = .running ∧
      decode (bytesAtPc (mk 253 [0xA0, 0, 7] [] [])) = .ok (.add 0#8 7#8, [])) ∧
    ((mk 255 [0x01] [] []).status = .running ∧ decode (bytesAtPc (mk 255 [0x01] [] [])) = .ok (.hlt, [])) :=
  ⟨⟨rfl, rfl⟩, ⟨rfl, rfl⟩⟩

/-- One byte for each clause, in the last cell: 0xFF, 0x00, 0xA3, and 0xA1 without SUB. -/
theorem witness_UndefinedOpcodeFaults :
    (Fetches (mk 255 [0xFF] [] []) 0xFF#8 ∧ (0xFF#8).getLsbD 4 = true ∧ 0xFF#8 ∉ controlFlowBytes) ∧
    (Fetches (mk 255 [0x00] [] []) 0x00#8 ∧ (0x00#8).getLsbD 4 = false ∧ (0x00#8).getLsbD 5 = false ∧
      0x00#8 ∉ simpleBytes) ∧
    (Fetches (mk 255 [0xA3] [] []) 0xA3#8 ∧ (0xA3#8).getLsbD 4 = false ∧ (0xA3#8).getLsbD 5 = true ∧
      0xA3#8 ∉ aluBytes) ∧
    (Fetches (mk 0 [0xA1] [] []) 0xA1#8 ∧ (0xA1#8).getLsbD 4 = false ∧ (0xA1#8).getLsbD 5 = true ∧
      ({ Config.params with subDecodes := false } : Params).subDecodes = false) := by
  unfold Fetches; decide

/-- Each check of 60_exceptions.md R147 as the first that fails, at the edge where it starts, and none failing beside it. -/
theorem witness_StepReportsFirstFailedCheck :
    firstFault { mk 0 [] [] [] with pc := 256 } = some (.addressingFetch, 256) ∧
    firstFault (mk 255 [] [] []) = some (.decodeError, 0) ∧
    firstFault (mk 255 [0xAF] [] []) = some (.unsupportedAluOp, 0xAF) ∧
    firstFault (mk 255 [0x45] [] []) = some (.addressingOperand, 256) ∧
    firstFault (mk 254 [0xA0, 0] [] []) = some (.addressingOperand, 256) ∧
    firstFault (mk 253 [0xA0, 8, 9] [] []) = some (.addressingRegister, 8) ∧
    firstFault (mk 253 [0xA0, 7, 8] [] []) = some (.addressingRegister, 8) ∧
    firstFault (mk 253 [0xA4, 7, 0] [] []) = some (.divisionByZero, 0) ∧
    firstFault (mk 254 [0x50, 7] [] []) = some (.addressingReturnAddress, 256) ∧
    firstFault (mk 253 [0x82, 7, 8] [] []) = none ∧ firstFault (mk 253 [0x50, 7] [] []) = none ∧
    firstFault (mk 255 [0x01] [] []) = none := ⟨rfl, rfl, rfl, rfl, rfl, rfl, rfl, rfl, rfl, rfl, rfl, rfl⟩

theorem witness_FaultIsPrecise :
    ∃ t, (mk 254 [0x50, 7] [] []).status = .running ∧ step (mk 254 [0x50, 7] [] []) = .next t ∧ t.status = .faulted :=
  ⟨_, rfl, rfl, rfl⟩

/-- Each of the outcomes: no step, Running, Halted, Faulted. -/
theorem witness_StepOutcomes :
    State.reset.status ≠ .running ∧ (mk 0 [0x54, 0] [] []).status = .running ∧
    after (mk 0 [0x54, 0] [] []) (fun t => t.status) = some .running ∧
    after (mk 0 [0x01] [] []) (fun t => t.status) = some .halted ∧
    after (mk 0 [0x02] [] []) (fun t => t.status) = some .faulted := by decide

/-- The invariant at a state from which the pc reaches 256, and at pc 256, from which it faults. -/
theorem witness_StepKeepsInv :
    (∃ t, CoreInv (mk 253 [0xA0, 0, 7] [] []) ∧ step (mk 253 [0xA0, 0, 7] [] []) = .next t ∧ t.pc = 256) ∧
    (∃ t, CoreInv { mk 0 [] [] [] with pc := 256 } ∧ step { mk 0 [] [] [] with pc := 256 } = .next t ∧
      t.status = .faulted) := by
  refine ⟨⟨_, ?_, rfl, rfl⟩, ⟨_, ?_, rfl, rfl⟩⟩ <;>
    exact ⟨by decide, by decide, by unfold flagsAtMostOne; decide, by unfold recordFits; decide⟩

theorem witness_EventsKeepInv : CoreInv State.reset :=
  ⟨by decide, by decide, by unfold flagsAtMostOne; decide, by unfold recordFits; decide⟩

theorem witness_ExactlyOneFlagPersists :
    ∃ t, flagsExactlyOne ({ mk 0 [0x01] [] [] with fl := { L := true, G := false, E := false } } : State).fl ∧
      step { mk 0 [0x01] [] [] with fl := { L := true, G := false, E := false } } = .next t := ⟨_, rfl, rfl⟩

theorem witness_StartOnlyFromIdle :
    State.reset.status = .idle ∧ (mk 0 [] [] []).status ≠ .idle ∧ parseImage (some [['2']]) = .error .badLine :=
  ⟨rfl, by decide, rfl⟩

/-- The empty image and the longest, with their first address without and their last with a byte. -/
theorem witness_LaunchState :
    (∃ img : List Byte, img.length ≤ 256 ∧ img.length ≤ 0) ∧
    (∃ img : List Byte, img.length ≤ 256 ∧ 255 < img.length) ∧ (∃ img : List Byte, img.length ≤ 256 ∧ img.length ≤ 256) :=
  have h : (List.replicate 256 1#8).length = 256 := List.length_replicate
  ⟨⟨[], by decide, by decide⟩, ⟨_, h.le, by rw [h]; decide⟩, ⟨_, h.le, h.le⟩⟩

/-- A file of n lines 1 holds n bytes 1. -/
theorem test_parse_ones (n : Nat) : parseImageLines (List.replicate n ['1']) = .ok (List.replicate n 1#8) := by
  have h : parseImageLine ['1'] = .ok (some 1#8) := rfl
  induction n with
  | zero => rfl
  | succ n ih => simp only [List.replicate_succ, parseImageLines, h, ih]

/-- A bad line, and a file one byte too long. -/
theorem witness_LoadErrorLeavesCoreIdle :
    parseImage (some [['2']]) = .error .badLine ∧
    ∃ (lines : List (List Char)) (img : List Byte), parseImageLines lines = .ok img ∧ 256 < img.length :=
  have h : (List.replicate 257 1#8).length = 257 := List.length_replicate
  ⟨rfl, _, _, test_parse_ones 257, by rw [h]; decide⟩

/-- A state for each premise of the transitions. -/
theorem witness_StatusTransitions :
    State.reset.status = .idle ∧ (mk 0 [0x01] [] []).status = .running ∧ (mk 0 [0x01] [] []).status ≠ .idle ∧
    ({ mk 0 [] [] [] with status := .halted } : State).status = .halted ∧
    ({ mk 0 [] [] [] with status := .faulted } : State).status = .faulted ∧
    opcodeAt (mk 0 [0x01] [] []) = 0x01#8 ∧ firstFault (mk 0 [0x02] [] []) = some (.decodeError, 0x02) :=
  ⟨rfl, rfl, by decide, rfl, rfl, rfl, rfl⟩

theorem witness_HarnessCeiling :
    ({ Config.params with fuel := some 3 } : Params).fuel = some 3 ∧ Config.params.fuel = none ∧
    (∃ t, stepWith { Config.params with subDecodes := false } (mk 255 [0xA1] [] []) = .next t) ∧
    (∃ t, step (mk 255 [0x01] [] []) = .next t) := ⟨rfl, rfl, ⟨_, rfl⟩, ⟨_, rfl⟩⟩

/-- The premise of each instruction's rule, at the first and at the last cell. -/
theorem witness_instruction_rules :
    ∀ op ∈ controlFlowBytes ++ aluBytes ++ simpleBytes, Fetches (mk 0 [op] [] []) op ∧ Fetches (mk 255 [op] [] []) op := by
  unfold Fetches; decide

/-- CMP completes at both values of CMP_SIGNED, and SUB_DECODES has both. -/
theorem witness_CmpRule_SubRule :
    (∃ t, Fetches (mk 253 [0xA7, 0, 7] [] []) 0xA7#8 ∧ stepWith Config.params (mk 253 [0xA7, 0, 7] [] []) = .next t ∧
      t.status = .running) ∧
    (∃ t, stepWith { Config.params with cmpSigned := true } (mk 253 [0xA7, 0, 7] [] []) = .next t ∧
      t.status = .running) ∧
    Config.params.subDecodes = true ∧ ({ Config.params with subDecodes := false } : Params).subDecodes = false :=
  ⟨⟨_, ⟨rfl, by decide, rfl⟩, rfl, rfl⟩, ⟨_, rfl, rfl⟩, rfl, rfl⟩

/-- The edges of the operand forms: the last pc at which the operands lie in memory, and the last register. -/
theorem witness_operand_forms :
    ¬ 254 ≤ (mk 253 [0xA0, 7, 7] [] []).pc ∧ (operandA (mk 253 [0xA0, 7, 7] [] [])).toNat < 8 ∧
    (operandB (mk 253 [0xA0, 7, 7] [] [])).toNat < 8 ∧ 254 ≤ (mk 254 [0xA0, 7] [] []).pc ∧
    ¬ (operandA (mk 253 [0xA0, 8, 7] [] [])).toNat < 8 ∧ ¬ (operandB (mk 253 [0xA0, 7, 8] [] [])).toNat < 8 ∧
    (mk 254 [0x69, 7] [] []).pc ≠ 255 ∧ (mk 255 [0x69] [] []).pc = 255 := by decide

/-- The second and third clause of HLT's rule. -/
theorem witness_HltRule :
    ({ mk 0 [] [] [] with status := .halted } : State).status = .halted ∧ Event.start ≠ .rst ∧
    ∃ t, (mk 255 [0x01] [] []).status = .running ∧ step (mk 255 [0x01] [] []) = .next t ∧ t.status = .halted :=
  ⟨rfl, by decide, _, rfl, rfl, rfl⟩

/-- Good registers at both ends, a divisor that is not 0, and a shift by the width. -/
theorem witness_ArithmeticCompletes_LogicAndShiftComplete :
    (7#8).toNat < 8 ∧ (0#8).toNat < 8 ∧ (mk 0 [] [(0, 1)] []).x[(0#8).toNat] ≠ 0x00#8 ∧
    8 ≤ (mk 0 [] [(0, 8)] []).x[(0#8).toNat].toNat := by decide

/-- Each order of the two registers of CMP. -/
theorem witness_CompareCompletes :
    (mk 0 [] [(0, 0), (1, 255)] []).x[(0#8).toNat].toNat < (mk 0 [] [(0, 0), (1, 255)] []).x[(1#8).toNat].toNat ∧
    (mk 0 [] [(0, 1), (1, 0)] []).x[(1#8).toNat].toNat < (mk 0 [] [(0, 1), (1, 0)] []).x[(0#8).toNat].toNat ∧
    (mk 0 [] [] []).x[(0#8).toNat] = (mk 0 [] [] []).x[(1#8).toNat] := by decide

/-- The highest pc CALL completes at, and both values of E. -/
theorem witness_StackAndCallComplete_JumpsComplete_SimpleOperationsComplete :
    (7#8).toNat < 8 ∧ (mk 253 [] [] []).pc + 2 ≤ 255 ∧ (mk 0 [] [] []).fl.E = false ∧
    ({ mk 0 [] [] [] with fl := { L := false, G := false, E := true } } : State).fl.E = true := by decide

/-- The first bad register of each operand form. -/
theorem witness_BadRegisterOperandFaults :
    (Instr.add 8#8 9#8).regOperands.find? (fun q => decide (8 ≤ q.toNat)) = some 8#8 ∧
    (Instr.add 7#8 255#8).regOperands.find? (fun q => decide (8 ≤ q.toNat)) = some 255#8 ∧
    (Instr.jne 8#8).regOperands.find? (fun q => decide (8 ≤ q.toNat)) = some 8#8 ∧
    (Instr.ldi 8#8 0#8).regOperands.find? (fun q => decide (8 ≤ q.toNat)) = some 8#8 := by decide

/-- A register, a flag owner and a byte outside what each shape writes; POP 7 writes register 7 alone. -/
theorem witness_frames :
    (∃ t, exec (.add 0#8 1#8) (mk 0 [] [] []) = .next t ∧ (1 : Fin 8).val ∉ writtenRegs (.add 0#8 1#8)) ∧
    (∃ t, exec (.pop 7#8) (mk 0 [] [] []) = .next t ∧ (6 : Fin 8).val ∉ writtenRegs (.pop 7#8)) ∧
    (∃ t, exec (.push 0#8) (mk 0 [] [] []) = .next t ∧ (∀ a b : Byte, Instr.push 0#8 ≠ .cmp a b) ∧
      storesToStack (.push 0#8) = true ∧ 0xF4 ≠ (mk 0 [] [] []).pushAddr) ∧
    (∃ t, exec (.ldi 0#8 1#8) (mk 0 [] [] []) = .next t ∧ storesToStack (.ldi 0#8 1#8) = false) := by
  refine ⟨⟨_, rfl, by decide⟩, ⟨_, rfl, by decide⟩, ⟨_, rfl, by simp, rfl, by decide⟩, ⟨_, rfl, rfl⟩⟩

/-- One instruction for each clause of the next pc: HLT, a taken branch, one not taken. -/
theorem witness_NextPc :
    (∃ t, exec .hlt (mk 5 [] [] []) = .next t ∧ t.status ≠ .faulted) ∧
    (∃ t, exec (.jne 0#8) (mk 5 [] [] []) = .next t ∧ t.status ≠ .faulted ∧
      transfersControl (mk 5 [] [] []).fl (.jne 0#8) = true) ∧
    (∃ t, exec (.jeq 0#8) (mk 254 [] [] []) = .next t ∧ t.status ≠ .faulted ∧ Instr.jeq 0#8 ≠ .hlt ∧
      transfersControl (mk 254 [] [] []).fl (.jeq 0#8) = false) :=
  ⟨⟨_, rfl, by decide⟩, ⟨_, rfl, by decide, rfl⟩, ⟨_, rfl, by decide, by decide, rfl⟩⟩

theorem witness_PushPopRoundTrip :
    ∃ t u, (6#8).toNat < 7 ∧ (0#8).toNat < 7 ∧ exec (.push 6#8) (mk 0 [] [(7, 0)] []) = .next t ∧
      exec (.pop 0#8) t = .next u := ⟨_, _, by decide, by decide, rfl, rfl⟩

theorem witness_StackWraparound :
    (6#8).toNat < 7 ∧ (mk 0 [] [(7, 0)] []).x[7] = 0x00#8 ∧ (mk 0 [] [(7, 0xFF)] []).x[7] = 0xFF#8 := by decide

/-- A CALL at the highest pc, with the RET run in the state the CALL left. -/
theorem witness_CallRetRoundTrip :
    ∃ t v, (0#8).toNat < 8 ∧ (mk 253 [] [] []).pc ≤ 253 ∧ exec (.call 0#8) (mk 253 [] [] []) = .next t ∧
      t.x[7] = t.x[7] ∧ t.mem.read t.x[7].toNat = t.mem.read t.x[7].toNat ∧ exec .ret t = .next v :=
  ⟨_, _, by decide, by decide, rfl, rfl, rfl, rfl⟩

/-- A PUSH of HLT onto the next byte, and of an undefined byte at the highest pc. -/
theorem witness_StoreSeenByNextFetch :
    (Fetches (mk 6 [0x45, 0] [(0, 1), (7, 9)] []) 0x45#8 ∧ (operandA (mk 6 [0x45, 0] [(0, 1), (7, 9)] [])).toNat < 7 ∧
      (mk 6 [0x45, 0] [(0, 1), (7, 9)] []).x[7] = BitVec.ofNat 8 (6 + 3) ∧
      (mk 6 [0x45, 0] [(0, 1), (7, 9)] []).x[0] = 0x01#8) ∧
    (Fetches (mk 253 [0x45, 6] [(6, 0xFF), (7, 0)] []) 0x45#8 ∧ (mk 253 [0x45, 6] [(6, 0xFF), (7, 0)] []).pc ≤ 253 ∧
      (mk 253 [0x45, 6] [(6, 0xFF), (7, 0)] []).x[7] = BitVec.ofNat 8 (253 + 3) ∧
      opcodeFault (mk 253 [0x45, 6] [(6, 0xFF), (7, 0)] []).x[6] = some .decodeError) := by
  unfold Fetches; decide

theorem witness_LessAndGreaterNeverRead :
    ∃ t, ({ L := true, G := true, E := false } : Flags).E = (mk 0 [0x55, 0] [] []).fl.E ∧
      step (mk 0 [0x55, 0] [] []) = .next t := ⟨_, rfl, rfl⟩

theorem witness_OutputAndRecordNeverRead : ∃ t, step (mk 0 [0x47, 0] [] []) = .next t := ⟨_, rfl⟩

/-- The three clauses of the output port: a PRN that completes, one that faults, an event that is no step. -/
theorem witness_OutputPortPresentsPrnByte :
    (Fetches (mk 254 [0x47, 7] [] []) 0x47#8 ∧ (operandA (mk 254 [0x47, 7] [] [])).toNat < 8 ∧
      (mk 254 [0x47, 7] [] []).pc ≤ 254) ∧
    ¬ (Fetches (mk 255 [0x47] [] []) 0x47#8 ∧ firstFault (mk 255 [0x47] [] []) = none) ∧ Event.rst ≠ .step := by
  unfold Fetches; decide

end Sys2Proof.Tests
end

/-! # A step against the checks of 60_exceptions.md R147

`firstFault` lists the checks from the spec; the model meets them in `fetch` and in the meanings. Here each half of `firstFault` is
matched with the model's: the fetch with checks 2 to 4, `exec` with 5 and 6. `step_faultsOr` joins them and says once what a step
of a running core answers. -/

namespace Sys2Proof.Safety

open Sys2Proof.Machine

/-! ## Results that take a given fault or none -/

/-- The result is decided by the outcome of some checks: the fault of a failed check is taken, and with none the result is a next
state with the property. -/
def FaultsOr (s : State) (failed : Option (FaultCause × Nat)) (P : State → Prop) (res : Result) : Prop :=
  match failed with
  | some (cause, detail) => res = .next (s.raise cause detail)
  | none => ∃ t, res = .next t ∧ P t

/-- The check of one register operand (60_exceptions.md R147, check 5). -/
def regFault (r : Byte) : Option (FaultCause × Nat) :=
  if 7 < r.toNat then some (.addressingRegister, r.toNat) else none

/-- A register check comes before every check of the rest of the instruction. -/
theorem withReg_faultsOr {s : State} {r : Byte} {k : Fin 8 → Result} {failed : Option (FaultCause × Nat)} {P : State → Prop}
    (h : ∀ hr : r.toNat < 8, FaultsOr s failed P (k ⟨r.toNat, hr⟩)) :
    FaultsOr s ((regFault r).or failed) P (withReg s r k) := by
  by_cases hr : r.toNat < 8
  · rw [regFault, if_neg (by omega), Option.none_or, withReg_good s r k hr]
    exact h hr
  · rw [regFault, if_pos (by omega), Option.some_or]
    exact withReg_bad s r k hr

/-- The same of two registers, a before b. -/
theorem withRegs_faultsOr {s : State} {a b : Byte} {k : Fin 8 → Fin 8 → Result} {failed : Option (FaultCause × Nat)}
    {P : State → Prop} (h : ∀ (ha : a.toNat < 8) (hb : b.toNat < 8), FaultsOr s failed P (k ⟨a.toNat, ha⟩ ⟨b.toNat, hb⟩)) :
    FaultsOr s ((regFault a).or ((regFault b).or failed)) P (withRegs s a b k) :=
  withReg_faultsOr fun ha => withReg_faultsOr (h ha)

theorem aluBinary_faultsOr {s : State} {a b : Byte} {f : Byte → Byte → Byte} {P : State → Prop}
    (h : ∀ (ha : a.toNat < 8) (v : Byte), P ((s.setReg ⟨a.toNat, ha⟩ v).advance 3)) :
    FaultsOr s ((regFault a).or ((regFault b).or none)) P (aluBinary s a b f) :=
  withRegs_faultsOr fun ha _ => ⟨_, rfl, h ha _⟩

theorem branchIf_faultsOr {s : State} {a : Byte} {taken : Bool} {P : State → Prop}
    (h : ∀ ha : a.toNat < 8, P (if taken then s.jump (s.reg ⟨a.toNat, ha⟩) else s.advance 2)) :
    FaultsOr s ((regFault a).or none) P (branchIf s a taken) :=
  withReg_faultsOr fun ha => ⟨_, rfl, h ha⟩

/-! ## The checks of an instruction's execution -/

/-- The check an instruction makes after its register operands are found good (60_exceptions.md R147, check 6). -/
def ownFault (s : State) : Instr → Option (FaultCause × Nat)
  | .mod _ b => if s.x[b.toNat]? = some 0x00#8 then some (.divisionByZero, b.toNat) else none
  | .call _ => if 255 < s.pc + 2 then some (.addressingReturnAddress, s.pc + 2) else none
  | _ => none

/-- The first check that fails when an instruction executes: its register operands in order, then its own. -/
def execFault (s : State) (i : Instr) : Option (FaultCause × Nat) :=
  i.regOperands.foldr (fun r later => (regFault r).or later) (ownFault s i)

theorem getElem?_eq_some_iff_reg (s : State) {n : Nat} (hn : n < 8) (v : Byte) :
    s.x[n]? = some v ↔ s.reg ⟨n, hn⟩ = v := by
  simp [State.reg, hn]

/-- Executing an instruction takes the fault of its first failed check, and has its effect when none fails. -/
theorem exec_faultsOr (i : Instr) (s : State) : FaultsOr s (execFault s i) (ExecEffect i s) (exec i s) := by
  cases i <;> dsimp only [execFault, Instr.regOperands, List.foldr_cons, List.foldr_nil, ownFault, exec, execCmp]
  case hlt | ret => exact ⟨_, rfl, rfl⟩
  case jmp | jeq | jne => exact branchIf_faultsOr fun ha => ⟨ha, rfl⟩
  case prn | push | pop => exact withReg_faultsOr fun ha => ⟨_, rfl, ha, rfl⟩
  case not | ldi => exact withReg_faultsOr fun ha => ⟨_, rfl, _, ha, rfl⟩
  case cmp => exact withRegs_faultsOr fun _ _ => ⟨_, rfl, _, _, rfl⟩
  case add | sub | mul | and | or | xor | shl | shr => exact aluBinary_faultsOr fun ha v => ⟨v, ha, rfl⟩
  case call =>
    refine withReg_faultsOr fun ha => ?_
    split
    · rfl
    · exact ⟨_, rfl, ha, by omega, rfl⟩
  case mod =>
    refine withRegs_faultsOr fun ha hb => ?_
    simp only [getElem?_eq_some_iff_reg s hb]
    split
    · rfl
    · exact ⟨_, rfl, _, ha, rfl⟩

/-- Only HLT changes the status when no fault is taken (10_state.md R30). -/
theorem status_of_execEffect {i : Instr} {s t : State} (h : ExecEffect i s t) :
    t.status = if i = .hlt then .halted else s.status := by
  cases i
  case hlt | ret => subst h; rfl
  case jmp | prn | push | pop => obtain ⟨_, rfl⟩ := h; rfl
  case jeq | jne => obtain ⟨_, rfl⟩ := h; split <;> rfl
  all_goals obtain ⟨_, _, rfl⟩ := h; rfl

/-! ## The checks of the fetch -/

/-- The cause a decoder's answer gives: none where it answers a mnemonic. -/
def rejectCause : Except Reject Mnemonic → Option FaultCause
  | .ok _ => none
  | .error r => some (trapOfReject r).cause

/-- The spec's lists of opcodes and the decoder agree on each of the 256 bytes (30_encoding.md R66). -/
theorem opcodeFault_eq_rejectCause : ∀ op : Byte, opcodeFault op = rejectCause (decodeOp op) := by
  decide

theorem trapOfReject_detail {op : Byte} {r : Reject} (h : decodeOp op = .error r) : (trapOfReject r).detail = op.toNat := by
  rcases decodeOpWith_error h with rfl | rfl <;> rfl

theorem operandCount_eq_opCount (op : Byte) : operandCount op = opCount op := by
  have := op.isLt
  simp only [operandCount, opCount, BitVec.extractLsb'_toNat, Nat.shiftRight_eq_div_pow]
  omega

/-- The trap of a failed fetch is the first failed check. -/
theorem firstFault_of_fetch_error {s : State} {f : Trap} (h : fetch s = .error f) :
    firstFault s = some (f.cause, f.detail) := by
  rcases fetchWith_eq_error h with ⟨hp, rfl⟩ | ⟨hp, r, hd, rfl⟩ | ⟨hp, m, hd, hs, rfl⟩
  · simp [firstFault, hp]
  · have hop : opcodeFault (opcodeAt s) = some (trapOfReject r).cause :=
      (opcodeFault_eq_rejectCause _).trans (congrArg rejectCause hd)
    have hdet : (trapOfReject r).detail = (opcodeAt s).toNat := trapOfReject_detail hd
    simp [firstFault, Nat.not_lt.2 hp, hop, hdet]
  · have hop : opcodeFault (opcodeAt s) = none := (opcodeFault_eq_rejectCause _).trans (congrArg rejectCause hd)
    have hm : opcodeAt s = m.opcode := decodeOpWith_ok hd
    have hle := opCount_opcode_le m
    simp only [firstFault, if_neg (Nat.not_lt.2 hp), hop, operandCount_eq_opCount]
    rw [hm]
    by_cases hp255 : s.pc = 255
    · rw [if_pos (by omega), hp255]
    · rw [if_neg (by omega), if_pos (by omega), (by omega : s.pc + 2 = 256)]

theorem regFault_or (r : Byte) (later : Option (FaultCause × Nat)) :
    (regFault r).or later = if 7 < r.toNat then some (.addressingRegister, r.toNat) else later := by
  unfold regFault
  split <;> rfl

/-- Once the fetch has answered an instruction, the first failed check is one of its execution. -/
theorem firstFault_of_fetch_ok {s : State} {i : Instr} (h : fetch s = .ok i) : firstFault s = execFault s i := by
  obtain ⟨m, hd, hm, hs, rfl⟩ := fetchWith_eq_ok h
  have hop : opcodeFault (opcodeAt s) = none := (opcodeFault_eq_rejectCause _).trans (congrArg rejectCause hd)
  have hm : opcodeAt s = m.opcode := hm
  have hp : ¬ 255 < s.pc := by omega
  have ha : ¬ (1 ≤ opCount m.opcode ∧ 255 < s.pc + 1) := by omega
  have hb : ¬ (opCount m.opcode = 2 ∧ 255 < s.pc + 2) := by omega
  simp only [firstFault, if_neg hp, hop, operandBIsRegister, operandCount_eq_opCount]
  rw [hm, if_neg ha, if_neg hb, opCount_opcode]
  cases m <;> simp [Mnemonic.build, Mnemonic.opcode, execFault, Instr.regOperands, ownFault, regFault_or, operandA, operandB]

/-! ## The step -/

/-- A step of a running core takes the fault of the first failed check, and when none fails it has the effect of the instruction
fetched (60_exceptions.md R147, 70_reset_and_hazards.md R180). -/
theorem step_faultsOr {s : State} (hr : s.status = .running) :
    FaultsOr s (firstFault s) (fun t => ∃ i, fetch s = .ok i ∧ ExecEffect i s t) (step s) := by
  cases hf : fetch s with
  | error f =>
    rw [firstFault_of_fetch_error hf]
    exact step_fetch_error hr hf
  | ok i =>
    rw [firstFault_of_fetch_ok hf, step_fetch_ok hr hf]
    have h := exec_faultsOr i s
    cases hc : execFault s i with
    | some c => rwa [hc] at h
    | none =>
      rw [hc] at h
      obtain ⟨t, ht, he⟩ := h
      exact ⟨t, ht, i, rfl, he⟩

/-- The instruction fetched is HLT exactly when its opcode stands at the pc (42_simple.md R130). -/
theorem fetch_eq_hlt_iff {s : State} {i : Instr} (h : fetch s = .ok i) : i = .hlt ↔ opcodeAt s = 0x01#8 := by
  obtain ⟨m, -, hm, -, rfl⟩ := fetchWith_eq_ok h
  rw [opcodeAt, hm]
  cases m <;> simp [Mnemonic.build, Mnemonic.opcode]

/-- Settles O10: a core that is not running is answered unchanged; of a running one, a failed check is the outcome Faulted, and with
none the instruction fetched decides between Halted and Running. -/
theorem stepOutcomes : Obligations.StepOutcomes := by
  intro s
  by_cases hr : s.status = .running
  case neg => exact ⟨s, step_not_running s hr, fun _ => rfl, fun h => absurd h hr⟩
  have h := step_faultsOr hr
  cases hc : firstFault s with
  | some c =>
    rw [hc] at h
    exact ⟨_, h, fun hn => absurd hr hn, fun _ => .inr (.inr ⟨rfl, by simp⟩)⟩
  | none =>
    rw [hc] at h
    obtain ⟨t, ht, i, hf, he⟩ := h
    have hst := status_of_execEffect he
    refine ⟨t, ht, fun hn => absurd hr hn, fun _ => ?_⟩
    by_cases hlt : i = .hlt
    · exact .inr (.inl ⟨by rw [hst, if_pos hlt], rfl, (fetch_eq_hlt_iff hf).1 hlt⟩)
    · exact .inl ⟨by rw [hst, if_neg hlt, hr], rfl, mt (fetch_eq_hlt_iff hf).2 hlt⟩

end Sys2Proof.Safety

/-! # What a step keeps of the state

First what an instruction that takes no fault leaves in each element of the state, read off `ExecEffect`; then the frames of
10_state.md and the invariant `CoreInv`, which follow from these lemmas and from `step_faultsOr`. -/

namespace Sys2Proof.Safety

open Sys2Proof.Machine

/-! ## What an instruction without a fault leaves in each element of the state -/

/-- Memory changes by one store at most, that of PUSH and CALL at the decremented stack pointer (20_memory.md R42). -/
theorem mem_of_execEffect {i : Instr} {s t : State} (h : ExecEffect i s t) :
    t.mem = s.mem ∨ storesToStack i = true ∧ ∃ v, t.mem = s.mem.write s.pushAddr v := by
  cases i
  case push => obtain ⟨_, rfl⟩ := h; exact .inr ⟨rfl, _, s.decSp_storeTop_mem _⟩
  case call => obtain ⟨_, _, rfl⟩ := h; exact .inr ⟨rfl, _, s.decSp_storeTop_mem _⟩
  case hlt | ret => subst h; exact .inl rfl
  case jmp | prn | pop => obtain ⟨_, rfl⟩ := h; exact .inl rfl
  case jeq | jne => obtain ⟨_, rfl⟩ := h; split <;> exact .inl rfl
  all_goals obtain ⟨_, _, rfl⟩ := h; exact .inl rfl

/-- A write to another register leaves a register as it was. -/
theorem setReg_x_of_ne (s : State) {q r : Fin 8} (v : Byte) (h : r.val ≠ q.val) : (s.setReg q v).x[r] = s.x[r] :=
  (s.setReg_reg q r v).trans (if_neg (Fin.val_ne_iff.1 h))

/-- Only the registers of `writtenRegs` change (10_state.md R20, R21). -/
theorem x_of_execEffect {i : Instr} {s t : State} (h : ExecEffect i s t) (r : Fin 8) (hr : r.val ∉ writtenRegs i) :
    t.x[r] = s.x[r] := by
  cases i <;> simp only [writtenRegs, List.mem_cons, List.not_mem_nil, or_false, not_or] at hr
  case hlt => subst h; rfl
  case ret => subst h; exact setReg_x_of_ne s _ hr
  case push => obtain ⟨_, rfl⟩ := h; exact setReg_x_of_ne s _ hr
  case call => obtain ⟨_, _, rfl⟩ := h; exact setReg_x_of_ne s _ hr
  case pop =>
    obtain ⟨_, rfl⟩ := h
    exact (setReg_x_of_ne _ _ hr.2).trans (setReg_x_of_ne _ _ hr.1)
  case jmp | prn => obtain ⟨_, rfl⟩ := h; rfl
  case jeq | jne => obtain ⟨_, rfl⟩ := h; split <;> rfl
  case cmp => obtain ⟨_, _, rfl⟩ := h; rfl
  all_goals obtain ⟨_, _, rfl⟩ := h; exact setReg_x_of_ne s _ hr

/-- The width counts the opcode and the operand bytes of the encoding (30_encoding.md R60, R62). -/
theorem width_eq_operands_length (i : Instr) : i.width = 1 + i.operands.length := by
  rw [Instr.width, opCount_opcode]
  cases i <;> rfl

/-- The pc is kept by HLT, is an 8-bit target where control is transferred, and else moves on by the width (10_state.md R24 to
R26). -/
theorem pc_of_execEffect {i : Instr} {s t : State} (h : ExecEffect i s t) :
    (i = .hlt → t.pc = s.pc) ∧ (transfersControl s.fl i = true → t.pc ≤ 255) ∧
      (i ≠ .hlt → transfersControl s.fl i = false → t.pc = s.pc + i.width) := by
  have byte_le (v : Byte) : v.toNat ≤ 255 := Nat.le_of_lt_succ v.isLt
  cases i
  case hlt => subst h; exact ⟨fun _ => rfl, nofun, fun hn => absurd rfl hn⟩
  case ret => subst h; exact ⟨nofun, fun _ => byte_le _, fun _ => nofun⟩
  case call => obtain ⟨_, _, rfl⟩ := h; exact ⟨nofun, fun _ => byte_le _, fun _ => nofun⟩
  case jmp => obtain ⟨_, rfl⟩ := h; exact ⟨nofun, fun _ => byte_le _, fun _ => nofun⟩
  case jeq | jne =>
    obtain ⟨_, rfl⟩ := h
    split
    · next ht => exact ⟨nofun, fun _ => byte_le _, fun _ hn => absurd (ht.symm.trans hn) nofun⟩
    · next hn => exact ⟨nofun, fun ht => absurd ht hn, fun _ _ => by rw [width_eq_operands_length]; rfl⟩
  case prn | push | pop =>
    obtain ⟨_, rfl⟩ := h
    exact ⟨nofun, nofun, fun _ _ => by rw [width_eq_operands_length]; rfl⟩
  all_goals
    obtain ⟨_, _, rfl⟩ := h
    exact ⟨nofun, nofun, fun _ _ => by rw [width_eq_operands_length]; rfl⟩

/-- Only CMP writes the flags (10_state.md R27), only PRN the output, which grows by its register's byte (10_state.md R32), and none
the fault record. -/
theorem fl_out_fault_of_execEffect {i : Instr} {s t : State} (h : ExecEffect i s t) :
    t.fault = s.fault ∧
      ((t.fl = s.fl ∧ t.out = s.out) ∨
        (∃ a b va vb, i = .cmp a b ∧ t.fl = compareFlags Config.params.cmpSigned va vb ∧ t.out = s.out) ∨
        ∃ (a : Byte) (ha : a.toNat < 8), i = .prn a ∧ t.fl = s.fl ∧ t.out = s.out ++ [s.x[a.toNat]]) := by
  cases i
  case cmp => obtain ⟨va, vb, rfl⟩ := h; exact ⟨rfl, .inr (.inl ⟨_, _, va, vb, rfl, rfl, rfl⟩)⟩
  case prn => obtain ⟨ha, rfl⟩ := h; exact ⟨rfl, .inr (.inr ⟨_, ha, rfl, rfl, rfl⟩)⟩
  case hlt | ret => subst h; exact ⟨rfl, .inl ⟨rfl, rfl⟩⟩
  case jmp | push | pop => obtain ⟨_, rfl⟩ := h; exact ⟨rfl, .inl ⟨rfl, rfl⟩⟩
  case jeq | jne => obtain ⟨_, rfl⟩ := h; split <;> exact ⟨rfl, .inl ⟨rfl, rfl⟩⟩
  all_goals obtain ⟨_, _, rfl⟩ := h; exact ⟨rfl, .inl ⟨rfl, rfl⟩⟩

/-! ## The frames -/

/-- Settles O45: a fault writes no register, and without one only those of `writtenRegs` change. -/
theorem registerFrame : Obligations.RegisterFrame := by
  intro i s t h r hr
  rcases exec_next h with ⟨_, _, _, rfl⟩ | h
  · rfl
  · exact x_of_execEffect h r hr

/-- Settles O46: neither a fault nor an instruction other than CMP writes a flag. -/
theorem flagsWrittenOnlyByCmp : Obligations.FlagsWrittenOnlyByCmp := by
  intro i s t h hi
  rcases exec_next h with ⟨_, _, _, rfl⟩ | h
  · rfl
  · rcases (fl_out_fault_of_execEffect h).2 with ⟨hfl, _⟩ | ⟨a, b, _, _, hcmp, _⟩ | ⟨_, _, _, hfl, _⟩
    · exact hfl
    · exact absurd hcmp (hi a b)
    · exact hfl

/-- Settles O48: a fault changes the status and the record alone; without one the record is kept, HLT alone changes the status, and
PRN alone the output. -/
theorem outputStatusRecordFrame : Obligations.OutputStatusRecordFrame := by
  intro i s t h
  rcases exec_next h with ⟨_, _, _, rfl⟩ | h
  · exact ⟨.inl rfl, .inl rfl⟩
  · obtain ⟨hfault, hout⟩ := fl_out_fault_of_execEffect h
    refine ⟨?_, .inr ⟨hfault, status_of_execEffect h⟩⟩
    rcases hout with ⟨_, hout⟩ | ⟨_, _, _, _, _, _, hout⟩ | ⟨a, ha, hi, _, hout⟩
    · exact .inl hout
    · exact .inl hout
    · exact .inr ⟨a, ha, hi, hout⟩

/-- Settles O49: a next state that is not Faulted took no fault, and its pc is that of the instruction's effect. -/
theorem nextPc : Obligations.NextPc := by
  intro i s t h ht
  rcases exec_next h with ⟨_, _, _, rfl⟩ | h
  · exact absurd rfl ht
  · exact pc_of_execEffect h

/-! ## Bad register operands -/

/-- Of several register checks the first that fails is the fault (60_exceptions.md R147). -/
theorem foldr_regFault_of_find? {rs : List Byte} {r : Byte} (own : Option (FaultCause × Nat))
    (h : rs.find? (fun q => decide (8 ≤ q.toNat)) = some r) :
    rs.foldr (fun q later => (regFault q).or later) own = some (.addressingRegister, r.toNat) := by
  induction rs with
  | nil => cases h
  | cons q rs ih =>
    rw [List.foldr_cons, regFault_or]
    by_cases hq : 8 ≤ q.toNat
    · rw [List.find?_cons_of_pos (by simpa using hq)] at h
      cases h
      exact if_pos hq
    · rw [List.find?_cons_of_neg (by simpa using hq)] at h
      rw [if_neg (by omega), ih h]

/-- Settles O44: the first bad register operand is the first failed check of the execution, whose fault is taken. -/
theorem badRegisterOperandFaults : Obligations.BadRegisterOperandFaults := by
  intro i s r h
  have hf := exec_faultsOr i s
  rw [execFault, foldr_regFault_of_find? _ h] at hf
  exact hf

/-! ## The events -/

/-- Every step answers a next state, the one the event `step` leads to (70_reset_and_hazards.md R180). -/
theorem step_eq_next_handle (s : State) : step s = .next (s.handle .step) := by
  obtain ⟨t, ht⟩ := stepWith_answers Config.params s
  rw [stepWith_default] at ht
  rw [handle_step, stepped_eq ht, ht]

theorem handle_step_of_not_running {s : State} (h : s.status ≠ .running) : s.handle .step = s :=
  steppedWith_not_running h

theorem handle_start_of_idle {s : State} (h : s.status = .idle) : s.handle .start = { s with status := .running } :=
  if_pos h

theorem handle_start_of_not_idle {s : State} (h : s.status ≠ .idle) : s.handle .start = s := if_neg h

theorem handle_load_of_idle {s : State} (h : s.status = .idle) (a v : Byte) : s.handle (.load a v) = s.store a v :=
  if_pos h

theorem handle_load_of_not_idle {s : State} (h : s.status ≠ .idle) (a v : Byte) : s.handle (.load a v) = s := if_neg h

/-- Settles O19: the step's transition is the outcome `stepOutcomes` gives; the other events test the status themselves. -/
theorem statusTransitions : Obligations.StatusTransitions := by
  refine ⟨fun _ => rfl, fun s h => ⟨?_, ?_⟩, fun s h => ?_, fun s a v h => ⟨?_, ?_⟩, fun s h => ?_⟩
  · rw [handle_start_of_idle h]
  · exact handle_step_of_not_running (by simp [h])
  · obtain ⟨t, ht, -, hrun⟩ := stepOutcomes s
    rw [handle_step, stepped_eq ht]
    rcases hrun h with ⟨hst, hc, hop⟩ | ⟨hst, hc, hop⟩ | ⟨hst, hc⟩
    · rw [if_neg (not_not_intro hc), if_neg hop, hst]
    · rw [if_neg (not_not_intro hc), if_pos hop, hst]
    · rw [if_pos hc, hst]
  · exact handle_start_of_not_idle h
  · exact handle_load_of_not_idle h a v
  · exact handle_step_of_not_running (by rcases h with h | h <;> simp [h])

/-- Settles O15: `rst` leads to `State.reset`, whose memory lists no cell. -/
theorem resetValues : Obligations.ResetValues :=
  fun _ => ⟨fun _ => rfl, rfl, rfl, rfl, rfl, rfl, rfl, rfl⟩

/-! ## The flags after a step -/

/-- Of two values exactly one is below, above or equal to the other (40_alu.md R91). -/
theorem compareFlags_exactlyOne (signed : Bool) (va vb : Byte) : flagsExactlyOne (compareFlags signed va vb) := by
  simp only [flagsExactlyOne, compareFlags]
  rcases lt_trichotomy (cmpValue signed va) (cmpValue signed vb) with h | h | h
  · simp [h, h.not_gt, h.ne]
  · simp [h]
  · simp [h, h.not_gt, h.ne']

theorem flagsAtMostOne_of_exactlyOne {f : Flags} (h : flagsExactlyOne f) : flagsAtMostOne f := Nat.le_of_eq h

theorem fl_of_execEffect {i : Instr} {s t : State} (h : ExecEffect i s t) : t.fl = s.fl ∨ flagsExactlyOne t.fl := by
  rcases (fl_out_fault_of_execEffect h).2 with ⟨hfl, _⟩ | ⟨_, _, va, vb, _, hfl, _⟩ | ⟨_, _, _, hfl, _⟩
  · exact .inl hfl
  · exact .inr (hfl ▸ compareFlags_exactlyOne _ va vb)
  · exact .inl hfl

/-- Settles O14: a step keeps the flags or, by CMP, leaves exactly one set. -/
theorem exactlyOneFlagPersists : Obligations.ExactlyOneFlagPersists := by
  intro s t hs h
  rcases step_next h with ⟨_, rfl⟩ | ⟨_, f, _, rfl⟩ | ⟨_, i, _, h⟩
  · exact hs
  · exact hs
  · rcases exec_next h with ⟨_, _, _, rfl⟩ | h
    · exact hs
    · exact (fl_of_execEffect h).elim (fun hfl => hfl ▸ hs) id

/-! ## The invariant -/

/-- The cause of a failed check is one of 1 to 7, and from a pc of at most 256 its detail is at most 256 (60_exceptions.md R141). -/
theorem firstFault_bounds {s : State} {c : FaultCause} {d : Nat} (hp : s.pc ≤ 256) (h : firstFault s = some (c, d)) :
    c ≠ .none ∧ d ≤ 256 := by
  have opcodeFault_ne_none : ∀ op : Byte, opcodeFault op ≠ some .none := by decide
  have hop := (opcodeAt s).isLt
  have ha := (operandA s).isLt
  have hb := (operandB s).isLt
  unfold firstFault at h
  split at h
  · cases h
    exact ⟨nofun, hp⟩
  split at h
  · next cause hc =>
    cases h
    exact ⟨fun hn => opcodeFault_ne_none _ (hn ▸ hc), by omega⟩
  split_ifs at h with _ _ _ _ _ hcall <;> cases h <;> refine ⟨nofun, ?_⟩
  any_goals omega
  have hcount : operandCount (opcodeAt s) = 1 := by rw [hcall.1]; rfl
  omega

theorem recordFits_of_faulted {s : State} (h : s.status = .faulted) :
    recordFits s ↔ s.fault.cause ≠ .none ∧ s.fault.pc = s.pc ∧ s.fault.detail ≤ 256 := by
  rw [recordFits, if_pos h]

theorem recordFits_of_not_faulted {s : State} (h : s.status ≠ .faulted) :
    recordFits s ↔ s.fault = { cause := .none, pc := 0, detail := 0 } := by
  rw [recordFits, if_neg h]

/-- Taking a fault keeps the invariant where the fault's cause and detail may stand in the record (60_exceptions.md R146). -/
theorem coreInv_raise {s : State} {c : FaultCause} {d : Nat} (hs : CoreInv s) (hc : c ≠ .none) (hd : d ≤ 256) :
    CoreInv (s.raise c d) := by
  obtain ⟨hmem, hpc, hfl, -⟩ := hs
  exact ⟨hmem, hpc, hfl, (recordFits_of_faulted (State.raise_status s c d)).2 ⟨hc, rfl, hd⟩⟩

/-- A fetched instruction lies in memory, so that its end is at most 256 (decision D4). -/
theorem pc_add_width_le_of_fetch {s : State} {i : Instr} (h : fetch s = .ok i) : s.pc + i.width ≤ 256 := by
  obtain ⟨m, -, -, hs, rfl⟩ := fetchWith_eq_ok h
  rw [Instr.width, mnemonic_build]
  omega

/-- An instruction fetched by a running core keeps the invariant when it takes no fault. -/
theorem coreInv_of_execEffect {i : Instr} {s t : State} (hs : CoreInv s) (hr : s.status = .running) (hf : fetch s = .ok i)
    (h : ExecEffect i s t) : CoreInv t := by
  obtain ⟨hmem, -, hfl, hrec⟩ := hs
  refine ⟨?_, ?_, ?_, ?_⟩
  · rcases mem_of_execEffect h with hm | ⟨-, v, hm⟩
    · rwa [hm]
    · rw [hm]
      exact Memory.write_wf _ _ _ (spDec (s.reg sp)).isLt hmem
  · have hw := pc_add_width_le_of_fetch hf
    obtain ⟨hhlt, hjump, hseq⟩ := pc_of_execEffect h
    by_cases hi : i = .hlt
    · have := hhlt hi
      omega
    · cases hc : transfersControl s.fl i with
      | true => exact (hjump hc).trans (by decide)
      | false => exact hseq hi hc ▸ hw
  · exact (fl_of_execEffect h).elim (fun he => he ▸ hfl) flagsAtMostOne_of_exactlyOne
  · have hst : t.status ≠ .faulted := by
      rw [status_of_execEffect h, hr]
      split <;> nofun
    rw [recordFits_of_not_faulted (by simp [hr])] at hrec
    rw [recordFits_of_not_faulted hst, (fl_out_fault_of_execEffect h).1, hrec]

/-- Settles O12: a step changes nothing, takes the fault of the first failed check, or has the effect of the instruction fetched. -/
theorem stepKeepsInv : Obligations.StepKeepsInv := by
  intro s t hs h
  by_cases hr : s.status = .running
  case neg =>
    rw [step_not_running s hr] at h
    cases h
    exact hs
  have hstep := step_faultsOr hr
  rw [h] at hstep
  cases hc : firstFault s with
  | some c =>
    rw [hc] at hstep
    cases hstep
    have ⟨_, hpc, _⟩ := hs
    obtain ⟨hcause, hdet⟩ := firstFault_bounds hpc hc
    exact coreInv_raise hs hcause hdet
  | none =>
    rw [hc] at hstep
    obtain ⟨_, ht, i, hf, he⟩ := hstep
    cases ht
    exact coreInv_of_execEffect hs hr hf he

/-- Settles O11: reset leaves empty memory, pc 0, no flag and the record of no fault. -/
theorem resetSatisfiesInv : Obligations.ResetSatisfiesInv :=
  ⟨State.reset_mem_wf, Nat.zero_le _, Nat.zero_le _, (recordFits_of_not_faulted (by decide)).2 rfl⟩

/-- Settles O13: `rst` leads to the reset state, `load` writes one cell, `start` changes the status alone, and a step keeps the
invariant by O12. -/
theorem eventsKeepInv : Obligations.EventsKeepInv := by
  intro s e hs
  cases e with
  | rst => exact resetSatisfiesInv
  | step => exact stepKeepsInv s _ hs (step_eq_next_handle s)
  | start =>
    by_cases h : s.status = .idle
    case neg => rwa [handle_start_of_not_idle h]
    obtain ⟨hmem, hpc, hfl, hrec⟩ := hs
    rw [handle_start_of_idle h]
    rw [recordFits_of_not_faulted (by simp [h])] at hrec
    exact ⟨hmem, hpc, hfl, (recordFits_of_not_faulted Status.noConfusion).2 hrec⟩
  | load a v =>
    by_cases h : s.status = .idle
    case neg => rwa [handle_load_of_not_idle h]
    obtain ⟨hmem, hpc, hfl, hrec⟩ := hs
    rw [handle_load_of_idle h]
    exact ⟨Memory.write_wf _ _ _ a.isLt hmem, hpc, hfl, hrec⟩

end Sys2Proof.Safety

/-! # What an instruction does not read

Two runs of one instruction, from states that differ only in L, G, the output and the fault record, side by side. -/

namespace Sys2Proof.Safety

open Sys2Proof.Machine

/-- The state with other flags, another output and another record; all that an instruction reads is the same when E is. -/
def withUnread (s : State) (f : Flags) (o : List Byte) (r : FaultRecord) : State :=
  { s with fl := f, out := o, fault := r }

/-- How two runs end that began in `s` and in `s'`: alike but in the flags, the output and the record, which each run has left,
added to or set as the other did. -/
structure EndAlike (s s' t t' : State) : Prop where
  mem : t'.mem = t.mem
  x : t'.x = t.x
  pc : t'.pc = t.pc
  status : t'.status = t.status
  fl : t'.fl = t.fl ∨ (t'.fl = s'.fl ∧ t.fl = s.fl)
  fault : t'.fault = t.fault ∨ (t'.fault = s'.fault ∧ t.fault = s.fault)
  out : ∃ emitted, t.out = s.out ++ emitted ∧ t'.out = s'.out ++ emitted

/-- Both results are next states, in which the runs from `s` and `s'` end alike. -/
def BothNext (s s' : State) (res res' : Result) : Prop :=
  ∃ t t', res = .next t ∧ res' = .next t' ∧ EndAlike s s' t t'

section
variable {s : State} {f : Flags} {o : List Byte} {r : FaultRecord}

/-- An operation that leaves the flags, the output and the record leaves them in both runs. -/
theorem bothNext_of_kept {t : State} (hfl : t.fl = s.fl) (hout : t.out = s.out) (hfault : t.fault = s.fault) :
    BothNext s (withUnread s f o r) (.next t) (.next (withUnread t f o r)) :=
  ⟨t, _, rfl, rfl, rfl, rfl, rfl, rfl, .inr ⟨rfl, hfl⟩, .inr ⟨rfl, hfault⟩, [],
    hout.trans (List.append_nil _).symm, (List.append_nil _).symm⟩

/-- Taking a fault sets the same record in both runs (60_exceptions.md R146). -/
theorem bothNext_raise (c : FaultCause) (d : Nat) :
    BothNext s (withUnread s f o r) (.next (s.raise c d)) (.next ((withUnread s f o r).raise c d)) :=
  ⟨_, _, rfl, rfl, rfl, rfl, rfl, rfl, .inr ⟨rfl, rfl⟩, .inl rfl, [], (List.append_nil _).symm, (List.append_nil _).symm⟩

/-- PRN appends the same byte in both runs. -/
theorem bothNext_emit (v : Byte) (n : Nat) :
    BothNext s (withUnread s f o r) (.next ((s.emit v).advance n)) (.next (((withUnread s f o r).emit v).advance n)) :=
  ⟨_, _, rfl, rfl, rfl, rfl, rfl, rfl, .inr ⟨rfl, rfl⟩, .inr ⟨rfl, rfl⟩, [v], rfl, rfl⟩

/-- CMP leaves the same flags in both runs. -/
theorem bothNext_setFlags (fl : Flags) (n : Nat) :
    BothNext s (withUnread s f o r) (.next ((s.setFlags fl).advance n))
      (.next (((withUnread s f o r).setFlags fl).advance n)) :=
  ⟨_, _, rfl, rfl, rfl, rfl, rfl, rfl, .inl rfl, .inr ⟨rfl, rfl⟩, [], (List.append_nil _).symm, (List.append_nil _).symm⟩

theorem withReg_bothNext {a : Byte} {k k' : Fin 8 → Result} (h : ∀ q, BothNext s (withUnread s f o r) (k q) (k' q)) :
    BothNext s (withUnread s f o r) (withReg s a k) (withReg (withUnread s f o r) a k') := by
  unfold withReg
  split
  · exact h _
  · exact bothNext_raise _ _

theorem withRegs_bothNext {a b : Byte} {k k' : Fin 8 → Fin 8 → Result}
    (h : ∀ p q, BothNext s (withUnread s f o r) (k p q) (k' p q)) :
    BothNext s (withUnread s f o r) (withRegs s a b k) (withRegs (withUnread s f o r) a b k') :=
  withReg_bothNext fun p => withReg_bothNext (h p)

theorem aluBinary_bothNext (a b : Byte) (g : Byte → Byte → Byte) :
    BothNext s (withUnread s f o r) (aluBinary s a b g) (aluBinary (withUnread s f o r) a b g) :=
  withRegs_bothNext fun _ _ => bothNext_of_kept rfl rfl rfl

/-- A check that comes out the same way in both runs. -/
theorem ite_bothNext {c : Prop} [Decidable c] {a b a' b' : Result} (ha : BothNext s (withUnread s f o r) a a')
    (hb : BothNext s (withUnread s f o r) b b') :
    BothNext s (withUnread s f o r) (if c then a else b) (if c then a' else b') := by
  split
  · exact ha
  · exact hb

theorem branchIf_bothNext (a : Byte) {taken taken' : Bool} (h : taken' = taken) :
    BothNext s (withUnread s f o r) (branchIf s a taken) (branchIf (withUnread s f o r) a taken') := by
  subst h
  refine withReg_bothNext fun _ => ?_
  cases taken' <;> exact bothNext_of_kept rfl rfl rfl

/-- No instruction reads L, G, the output or the record (10_state.md R27, decisions D11 and D13). -/
theorem exec_bothNext (i : Instr) (hE : f.E = s.fl.E) :
    BothNext s (withUnread s f o r) (exec i s) (exec i (withUnread s f o r)) := by
  cases i <;> dsimp only [exec, execCmp]
  case hlt | ret => exact bothNext_of_kept rfl rfl rfl
  case jmp a => exact branchIf_bothNext a rfl
  case jeq a => exact branchIf_bothNext a hE
  case jne a => exact branchIf_bothNext a (congrArg (!·) hE)
  case ldi | not | push | pop =>
    refine withReg_bothNext fun _ => ?_
    exact bothNext_of_kept rfl rfl rfl
  case prn => exact withReg_bothNext fun _ => bothNext_emit _ _
  case cmp => exact withRegs_bothNext fun _ _ => bothNext_setFlags _ _
  case call =>
    refine withReg_bothNext fun _ => ite_bothNext (bothNext_raise _ _) ?_
    exact bothNext_of_kept rfl rfl rfl
  case mod =>
    refine withRegs_bothNext fun _ _ => ite_bothNext (bothNext_raise _ _) ?_
    exact bothNext_of_kept rfl rfl rfl
  all_goals exact aluBinary_bothNext _ _ _

/-- A step reads no more than its instruction does: the fetch is from memory and the pc. -/
theorem step_bothNext (hE : f.E = s.fl.E) : BothNext s (withUnread s f o r) (step s) (step (withUnread s f o r)) := by
  have hfetch : fetch (withUnread s f o r) = fetch s := rfl
  by_cases hr : s.status = .running
  case neg =>
    rw [step_not_running s hr, step_not_running (withUnread s f o r) hr]
    exact bothNext_of_kept rfl rfl rfl
  cases hf : fetch s with
  | error c =>
    rw [step_fetch_error hr hf, step_fetch_error (s := withUnread s f o r) hr (hfetch.trans hf)]
    exact bothNext_raise _ _
  | ok i =>
    rw [step_fetch_ok hr hf, step_fetch_ok (s := withUnread s f o r) hr (hfetch.trans hf)]
    exact exec_bothNext i hE

/-- What the step of the other run answers, from a step that answers a next state. -/
theorem step_withUnread {t : State} (hE : f.E = s.fl.E) (h : step s = .next t) :
    ∃ u, step (withUnread s f o r) = .next u ∧ EndAlike s (withUnread s f o r) t u := by
  obtain ⟨_, u, ht, hu, he⟩ := step_bothNext (o := o) (r := r) hE
  cases ht.symm.trans h
  exact ⟨u, hu, he⟩

end

/-- Settles O54: the two runs of `step_withUnread` with the same output and record before them. -/
theorem lessAndGreaterNeverRead : Obligations.LessAndGreaterNeverRead := by
  intro s t f hE h
  obtain ⟨u, hu, he⟩ := step_withUnread (o := s.out) (r := s.fault) hE h
  obtain ⟨emitted, ht, hu'⟩ := he.out
  exact ⟨u, hu, he.mem, he.x, he.pc, he.status, he.fault.elim id fun ⟨h1, h2⟩ => h1.trans h2.symm, hu'.trans ht.symm,
    he.fl.symm.imp_left And.left⟩

/-- Settles O55: the two runs of `step_withUnread` with the same flags before them. -/
theorem outputAndRecordNeverRead : Obligations.OutputAndRecordNeverRead := by
  intro s t o r h
  obtain ⟨u, hu, he⟩ := step_withUnread (f := s.fl) (o := o) (r := r) rfl h
  obtain ⟨emitted, ht, hu'⟩ := he.out
  exact ⟨u, emitted, hu, ht, hu', he.mem, he.x, he.pc, he.fl.elim id fun ⟨h1, h2⟩ => h1.trans h2.symm, he.status, he.fault⟩

end Sys2Proof.Safety

/-! # Stores to memory

Where PUSH and CALL store, and that the next fetch reads it (20_memory.md R42, R52). -/

namespace Sys2Proof.Safety

open Sys2Proof.Machine

/-- Settles O47: a fault writes no cell, and without one the only store is that of PUSH and CALL. -/
theorem memoryFrame : Obligations.MemoryFrame := by
  intro i s t h addr haddr
  rcases exec_next h with ⟨_, _, _, rfl⟩ | h
  · rfl
  · rcases mem_of_execEffect h with hm | ⟨hi, v, hm⟩
    · rw [hm]
    · rw [hm, Memory.read_write_other _ _ _ _ (haddr hi)]

/-! ## The step at an opcode byte -/

/-- An undefined opcode byte takes its fault, whatever follows it (60_exceptions.md R142, R143). -/
theorem step_of_fetches_undefined {s : State} {op : Byte} {cause : FaultCause} (h : Fetches s op)
    (hc : opcodeFault op = some cause) : step s = .next (faultedAt s cause op.toNat) := by
  obtain ⟨hr, hp, rfl⟩ := h
  have hfirst : firstFault s = some (cause, (opcodeAt s).toNat) := by
    simp only [firstFault, if_neg (Nat.not_lt.2 hp), hc]
  have hstep := step_faultsOr hr
  rwa [hfirst] at hstep

theorem step_of_fetches_hlt {s : State} (h : Fetches s 0x01#8) : step s = .next { s with status := .halted } := by
  obtain ⟨hr, hp, hop⟩ := h
  rw [step_opcode (m := .hlt) hr hp (congrArg decodeOp hop)]
  exact if_neg (Nat.not_lt.2 hp)

theorem step_of_fetches_push {s : State} (h : Fetches s 0x45#8) (hp : s.pc ≤ 254) :
    step s = exec (.push (operandA s)) s := by
  obtain ⟨hr, hp255, hop⟩ := h
  rw [step_opcode (m := .push) hr hp255 (congrArg decodeOp hop)]
  exact if_neg (Nat.not_lt.2 (Nat.succ_le_succ hp))

/-! ## A store seen by the next fetch -/

/-- PUSH of a register other than SP stores the register's value (41_stack_control.md R111). -/
theorem exec_push_of_lt_seven {a : Byte} {s : State} (ha : a.toNat < 7) :
    exec (.push a) s = .next ((s.decSp.storeTop s.x[a.toNat]).advance 2) := by
  have hreg : s.decSp.reg ⟨a.toNat, by omega⟩ = s.x[a.toNat] := setReg_x_of_ne s _ ha.ne
  rw [← hreg]
  exact withReg_good s a (fun r => .next ((s.decSp.storeTop (s.decSp.reg r)).advance 2)) _

/-- With SP one above an address of the memory, PUSH and CALL store to that address (41_stack_control.md R110). -/
theorem pushAddr_of_sp {s : State} {n : Nat} (hn : n ≤ 255) (h : s.x[7] = BitVec.ofNat 8 (n + 1)) : s.pushAddr = n := by
  rw [State.pushAddr, State.reg_sp, h]
  simp only [spDec, BitVec.toNat_ofNat]
  omega

/-- The next opcode byte is the pushed one when SP is one above its address (decision D17). -/
theorem opcodeAt_pushed {s : State} (v : Byte) (hp : s.pc ≤ 253) (hsp : s.x[7] = BitVec.ofNat 8 (s.pc + 3)) :
    opcodeAt ((s.decSp.storeTop v).advance 2) = v := by
  have haddr : s.pushAddr = s.pc + 2 := pushAddr_of_sp (by omega) hsp
  rw [opcodeAt, State.advance_mem, State.decSp_storeTop_mem, haddr]
  exact Memory.read_write_self _ _ _

/-- Settles O53: the PUSH stores to the address of the next fetch, so the next step is the one at the pushed byte. -/
theorem storeSeenByNextFetch : Obligations.StoreSeenByNextFetch := by
  intro s ha hfetch hp hsp
  have hop := opcodeAt_pushed s.x[(operandA s).toNat] hp hsp
  have hnext : Fetches ((s.decSp.storeTop s.x[(operandA s).toNat]).advance 2) s.x[(operandA s).toNat] :=
    ⟨hfetch.1, Nat.add_le_add_right hp 2, hop⟩
  refine ⟨_, ?_, rfl, hop, fun hv => ?_, fun _ hc => step_of_fetches_undefined hnext hc⟩
  · rw [step_of_fetches_push hfetch (by omega), exec_push_of_lt_seven ha]
  · exact step_of_fetches_hlt (hv ▸ hnext)

end Sys2Proof.Safety

/-! # Encoding and decoding

An instruction is a mnemonic and two operand bytes, of which its opcode counts some (30_encoding.md R62, R70). Its encoding is the
opcode and the counted bytes, and the decoder reads back just those; both round trips follow from this form. -/

namespace Sys2Proof

/-! ## The operand bytes -/

/-- The counted operand bytes are read back, an operand that is not counted as 0, and the bytes after them are left. -/
theorem takeOperands_counted {n : Nat} (hn : n ≤ 2) (a b : Byte) (rest : List Byte) :
    takeOperands n ([a, b].take n ++ rest) = some (if n = 0 then 0#8 else a, if n = 2 then b else 0#8, rest) := by
  match n with
  | 0 | 1 | 2 => rfl

/-- The operand bytes read and the bytes left over are all the bytes there were (30_encoding.md R67). -/
theorem counted_of_takeOperands {n : Nat} {bytes : List Byte} {a b : Byte} {rest : List Byte}
    (h : takeOperands n bytes = some (a, b, rest)) : [a, b].take n ++ rest = bytes := by
  unfold takeOperands at h
  split at h <;> cases h <;> rfl

/-! ## The form of an instruction -/

/-- An instruction is built from its mnemonic and its operands. -/
theorem eq_mnemonic_build (i : Instr) : ∃ a b, i = i.mnemonic.build a b := by
  cases i
  case ret | hlt => exact ⟨0#8, 0#8, rfl⟩
  case call a | jmp a | jeq a | jne a | not a | prn a | push a | pop a => exact ⟨a, 0#8, rfl⟩
  case add a b | sub a b | mul a b | mod a b | cmp a b | and a b | or a b | xor a b | shl a b | shr a b | ldi a b =>
    exact ⟨a, b, rfl⟩

/-- An encoding is the opcode and the operand bytes the opcode counts (30_encoding.md R60, R62). -/
theorem encode_build (m : Mnemonic) (a b : Byte) : encode (m.build a b) = m.opcode :: [a, b].take (opCount m.opcode) := by
  cases m <;> rfl

/-! ## The decoder's answers -/

theorem decode_opcode_cons {m : Mnemonic} {bytes rest : List Byte} {a b : Byte}
    (h : takeOperands (opCount m.opcode) bytes = some (a, b, rest)) :
    decode (m.opcode :: bytes) = .ok (m.build a b, rest) := by
  have hop : decodeOpWith Config.params.subDecodes m.opcode = .ok m := decodeOp_opcode m
  simp only [decode, decodeWith, hop, h]

/-- Bytes that decode are an opcode and what its operands are taken from, and the answer is built from these. -/
theorem decode_eq_ok {bytes rest : List Byte} {i : Instr} (h : decode bytes = .ok (i, rest)) :
    ∃ (m : Mnemonic) (operands : List Byte) (a b : Byte), bytes = m.opcode :: operands ∧
      takeOperands (opCount m.opcode) operands = some (a, b, rest) ∧ i = m.build a b := by
  unfold decode decodeWith at h
  split at h
  · cases h
  · split at h
    · cases h
    · next hop =>
      obtain rfl := decodeOpWith_ok hop
      split at h
      · cases h
      · next ht =>
        cases h
        exact ⟨_, _, _, _, rfl, ht, rfl⟩

/-- Settles O1: the operands read back are those encoded, and one that is not counted is not used. -/
theorem decodeEncodeRoundTrip : Obligations.DecodeEncodeRoundTrip := by
  intro i rest
  obtain ⟨a, b, hi⟩ := eq_mnemonic_build i
  rw [hi, encode_build, List.cons_append,
    decode_opcode_cons (takeOperands_counted (opCount_opcode_le _) a b rest), build_counted]

/-- Settles O2: the opcode read is that of the mnemonic answered, and the operand bytes read are those it counts. -/
theorem decodedBytesAreTheEncoding : Obligations.DecodedBytesAreTheEncoding := by
  intro bytes i rest h
  obtain ⟨m, operands, a, b, rfl, htake, rfl⟩ := decode_eq_ok h
  rw [encode_build, List.cons_append, counted_of_takeOperands htake]

/-- Settles O3: each word is the encoding of its instruction. -/
theorem opcodeWordsDecode : Obligations.OpcodeWordsDecode :=
  have h (i : Instr) : decode (encode i) = .ok (i, []) := by simpa using decodeEncodeRoundTrip i []
  ⟨h (.call 1#8), h .ret, h (.jeq 3#8), h (.add 2#8 7#8), h (.cmp 0#8 1#8), h (.not 4#8), h (.ldi 0#8 8#8), h (.push 6#8),
    h .hlt⟩

/-! ## The classification of the opcode bytes -/

/-- SUB's row, the last of the ALU table, is for byte 0xA1 alone (decision D1). -/
theorem aluTable_lookup_of_ne {op : Byte} (h : op ≠ 0xA1#8) : (aluTable false).lookup op = (aluTable true).lookup op := by
  have hrow : [(0xA1#8, Mnemonic.sub)].lookup op = none := by simp [List.lookup_cons, beq_false_of_ne h]
  calc (aluTable false).lookup op
    _ = ((aluTable false).lookup op).or ([(0xA1#8, Mnemonic.sub)].lookup op) := by rw [hrow, Option.or_none]
    _ = (aluTable true).lookup op := List.lookup_append.symm

/-- SUB_DECODES decides on byte 0xA1 alone. -/
theorem decodeOpWith_of_ne {op : Byte} (h : op ≠ 0xA1#8) (subDecodes : Bool) : decodeOpWith subDecodes op = decodeOp op := by
  cases subDecodes with
  | true => rfl
  | false =>
    unfold decodeOp decodeOpWith
    rw [aluTable_lookup_of_ne h]
    rfl

/-- Without SUB_DECODES byte 0xA1 is an ALU operation the core does not have (decision D1). -/
theorem decodeOpWith_false_sub : decodeOpWith false 0xA1#8 = .error (.unsupportedAluOp 0xA1#8) := by
  decide

/-- Settles O4: but for 0xA1 without SUB_DECODES the decoder answers as at its default, where `opcodeFault` is the cause of its
rejection and a byte it takes is its answer's opcode. -/
theorem opcodeClassification : Obligations.OpcodeClassification := by
  intro subDecodes op
  split
  case isTrue h =>
    obtain ⟨rfl, rfl⟩ := h
    exact decodeOpWith_false_sub
  case isFalse h =>
    have hdefault : decodeOpWith subDecodes op = decodeOp op := by
      by_cases hop : op = 0xA1#8
      · cases subDecodes
        · exact absurd ⟨hop, rfl⟩ h
        · rfl
      · exact decodeOpWith_of_ne hop subDecodes
    rw [hdefault, Safety.opcodeFault_eq_rejectCause]
    cases hd : decodeOp op with
    | ok m => exact ⟨m, rfl, (decodeOpWith_ok hd).symm⟩
    | error r => rcases decodeOpWith_error hd with rfl | rfl <;> rfl

/-! ## The counts of the opcode bytes -/

/-- A count over `n * k` numbers, block by block. -/
theorem countP_range_mul (n k : Nat) (p : Nat → Bool) :
    (List.range (n * k)).countP p = ((List.range n).map fun q => (List.range k).countP fun r => p (q * k + r)).sum := by
  induction n with
  | zero => simp
  | succ n ih => simp [Nat.succ_mul, List.range_add, List.range_succ, Function.comp_def, ih]

/-- A count over the 256 bytes, by their upper four bits. -/
theorem countP_bytes (p : Byte → Bool) :
    ((List.range 256).map (BitVec.ofNat 8)).countP p =
      ((List.range 16).map fun q => (List.range 16).countP fun r => p (BitVec.ofNat 8 (q * 16 + r))).sum := by
  rw [List.countP_map]
  exact countP_range_mul 16 16 _

/-- Settles O5: sixteen blocks of sixteen bytes, each counted by running the decoder. -/
theorem illegalByteCounts : Obligations.IllegalByteCounts := by
  unfold Obligations.IllegalByteCounts
  simp only [countP_bytes]
  decide

end Sys2Proof

/-! # The rules of the ALU family

A step at the opcode byte of an ALU instruction, from the checks of its operand form to the value written (40_alu.md). The fetch and
the register checks are matched with `afterRegReg` and `afterReg` once, for every instruction of the form; an instruction's rule is
then its value, read as the spec computes it. -/

namespace Sys2Proof.Safety

open Sys2Proof.Machine

/-! ## The step at an opcode, by operand form -/

/-- A register check before a rest that answers a next state. -/
theorem withReg_of_next (s : State) (r : Byte) (k : Fin 8 → State) :
    (withReg s r fun q => .next (k q)) =
      .next (if h : r.toNat < 8 then k ⟨r.toNat, h⟩ else faultedAt s .addressingRegister r.toNat) :=
  (apply_dite Host.Outcome.next _ _ _).symm

/-- At an opcode byte the decoder takes: the operand fault, or the execution of the instruction built from the bytes at the pc
(60_exceptions.md R147, checks 2 to 4). -/
theorem stepWith_of_fetches {p : Params} {s : State} {m : Mnemonic} (h : Fetches s m.opcode)
    (hd : decodeOpWith p.subDecodes m.opcode = .ok m) :
    stepWith p s = if 255 < s.pc + opCount m.opcode then .next (faultedAt s .addressingOperand 256)
      else execWith p (m.build (operandA s) (operandB s)) s := by
  obtain ⟨hr, hp, hop⟩ := h
  have hd : decodeOpWith p.subDecodes (s.mem.read s.pc) = .ok m := (congrArg _ hop).trans hd
  split
  case isTrue hs =>
    simp only [stepWith, if_pos hr, fetchWith_short hp hd hs]
    rfl
  case isFalse hs =>
    simp only [stepWith, if_pos hr, fetchWith_ok hd (Nat.le_of_not_lt hs)]
    rfl

/-- The step of an instruction of two registers (60_exceptions.md R147, checks 2 to 5). -/
theorem stepWith_regReg {p : Params} {s : State} {m : Mnemonic} {k : Fin 8 → Fin 8 → State} (h : Fetches s m.opcode)
    (hd : decodeOpWith p.subDecodes m.opcode = .ok m) (hcount : opCount m.opcode = 2)
    (hexec : execWith p (m.build (operandA s) (operandB s)) s =
      withRegs s (operandA s) (operandB s) fun ra rb => .next (k ra rb)) :
    stepWith p s = .next (afterRegReg s k) := by
  rw [stepWith_of_fetches h hd, hcount, hexec, withRegs]
  simp only [withReg_of_next]
  unfold afterRegReg
  by_cases hp : 254 ≤ s.pc
  · rw [if_pos (by omega), if_pos hp]
  · rw [if_neg (by omega), if_neg hp]

/-- The step of an instruction of one register (60_exceptions.md R147, checks 2 to 5). -/
theorem stepWith_reg {p : Params} {s : State} {m : Mnemonic} {k : Fin 8 → State} (h : Fetches s m.opcode)
    (hd : decodeOpWith p.subDecodes m.opcode = .ok m) (hcount : opCount m.opcode = 1)
    (hexec : execWith p (m.build (operandA s) (operandB s)) s = withReg s (operandA s) fun ra => .next (k ra)) :
    stepWith p s = .next (afterReg s k) := by
  have hp := h.2.1
  rw [stepWith_of_fetches h hd, hcount, hexec, withReg_of_next]
  unfold afterReg
  by_cases hpc : s.pc = 255
  · rw [if_pos (by omega), if_pos hpc]
  · rw [if_neg (by omega), if_neg hpc]

/-- The step of an instruction of the two-register ALU shape whose function has the values `v` (40_alu.md R80). -/
theorem stepWith_aluBinary {p : Params} {s : State} {m : Mnemonic} {f : Byte → Byte → Byte} {v : Fin 8 → Fin 8 → Byte}
    (h : Fetches s m.opcode) (hd : decodeOpWith p.subDecodes m.opcode = .ok m) (hcount : opCount m.opcode = 2)
    (hexec : execWith p (m.build (operandA s) (operandB s)) s = aluBinary s (operandA s) (operandB s) f)
    (hv : ∀ ra rb : Fin 8, f s.x[ra] s.x[rb] = v ra rb) :
    stepWith p s = .next (afterRegReg s fun ra rb => { s with x := s.x.set ra (v ra rb), pc := s.pc + 3 }) := by
  obtain rfl : (fun ra rb : Fin 8 => f s.x[ra] s.x[rb]) = v := funext fun ra => funext (hv ra)
  exact stepWith_regReg h hd hcount hexec

/-- The same of the core's own step. -/
theorem step_aluBinary {s : State} {m : Mnemonic} {f : Byte → Byte → Byte} {v : Fin 8 → Fin 8 → Byte}
    (h : Fetches s m.opcode) (hcount : opCount m.opcode = 2)
    (hexec : execWith Config.params (m.build (operandA s) (operandB s)) s = aluBinary s (operandA s) (operandB s) f)
    (hv : ∀ ra rb : Fin 8, f s.x[ra] s.x[rb] = v ra rb) :
    step s = .next (afterRegReg s fun ra rb => { s with x := s.x.set ra (v ra rb), pc := s.pc + 3 }) :=
  (stepWith_default s).symm.trans (stepWith_aluBinary h (decodeOp_opcode m) hcount hexec hv)

/-! ## Arithmetic -/

/-- Narrowing to 8 bits is the remainder by 256 (40_alu.md R80). -/
theorem ofNat_eq_ofNat_mod (n : Nat) : BitVec.ofNat 8 n = BitVec.ofNat 8 (n % 256) := by
  apply BitVec.eq_of_toNat_eq
  simp

/-- Settles O21: the model's sum is narrowed by taking it modulo 256. -/
theorem addRule : Obligations.AddRule := fun _ h =>
  step_aluBinary (m := .add) (f := aluAdd) h rfl rfl fun _ _ => ofNat_eq_ofNat_mod _

/-- Settles O22: SUB_DECODES decides whether the decoder takes 0xA1, and then it is of the ALU shape. -/
theorem subRule : Obligations.SubRule := by
  refine ⟨fun p s h => ?_, stepWith_default, rfl⟩
  cases hsub : p.subDecodes with
  | true =>
    have hd : decodeOpWith p.subDecodes Mnemonic.sub.opcode = .ok .sub := by rw [hsub]; exact decodeOp_opcode .sub
    exact stepWith_aluBinary (m := .sub) (f := aluSub) h hd rfl rfl fun _ _ => ofNat_eq_ofNat_mod _
  | false =>
    obtain ⟨hr, hp, hop⟩ := h
    have hd : decodeOpWith p.subDecodes (s.mem.read s.pc) = .error (.unsupportedAluOp 0xA1#8) := by
      rw [hsub]
      exact (congrArg _ hop).trans decodeOpWith_false_sub
    simp only [stepWith, if_pos hr, fetchWith_reject hp hd]
    rfl

/-- Settles O23: the model's product is narrowed by taking it modulo 256. -/
theorem mulRule : Obligations.MulRule := fun _ h =>
  step_aluBinary (m := .mul) (f := aluMul) h rfl rfl fun _ _ => ofNat_eq_ofNat_mod _

/-- Settles O24: both answers of MOD are next states, so its choice between them is one of states. -/
theorem modRule : Obligations.ModRule := by
  intro s h
  rw [← stepWith_default]
  refine stepWith_regReg (m := .mod) h (decodeOp_opcode .mod) rfl ?_
  simp only [apply_ite Host.Outcome.next]
  rfl

/-! ## Logic and shifts -/

/-- A byte whose bits are given is the byte built from them (00_scope.md R7). -/
theorem eq_ofFnLE_of_getLsbD {v : Byte} {bit : Fin 8 → Bool} (h : ∀ k : Fin 8, v.getLsbD k = bit k) :
    v = BitVec.ofFnLE bit := by
  apply BitVec.eq_of_getLsbD_eq
  intro k hk
  rw [BitVec.getLsbD_ofFnLE, dif_pos hk]
  exact h ⟨k, hk⟩

/-- Settles O25: each bit of the 8-bit and, or and exclusive or is that of the bits. -/
theorem bitwiseRules : Obligations.BitwiseRules := by
  intro s
  refine ⟨fun h => ?_, fun h => ?_, fun h => ?_⟩
  · exact step_aluBinary (m := .and) (f := (· &&& ·)) h rfl rfl fun _ _ => eq_ofFnLE_of_getLsbD fun _ => BitVec.getLsbD_and
  · exact step_aluBinary (m := .or) (f := (· ||| ·)) h rfl rfl fun _ _ => eq_ofFnLE_of_getLsbD fun _ => BitVec.getLsbD_or
  · exact step_aluBinary (m := .xor) (f := (· ^^^ ·)) h rfl rfl fun _ _ => eq_ofFnLE_of_getLsbD fun _ => BitVec.getLsbD_xor

/-- Settles O26: NOT has one operand byte, so at pc 254 it lies in memory. -/
theorem notRule : Obligations.NotRule := fun s h =>
  (stepWith_default s).symm.trans (stepWith_reg (m := .not) h (decodeOp_opcode .not) rfl rfl)

/-- Settles O27: the shifts are computed on unbounded numbers, by the whole amount (decision D3). -/
theorem shiftRules : Obligations.ShiftRules := fun _ =>
  ⟨fun h => step_aluBinary (m := .shl) (f := aluShl) h rfl rfl fun _ _ => ofNat_eq_ofNat_mod _,
    fun h => step_aluBinary (m := .shr) (f := aluShr) h rfl rfl fun _ _ => rfl⟩

/-! ## Comparison -/

/-- The signed value of CMP is the two's-complement integer (00_scope.md R7). -/
theorem sval_eq_toInt (v : Byte) : sval v = v.toInt := by
  rw [sval, BitVec.toInt_eq_toNat_cond]
  split <;> split <;> omega

/-- The flags of a comparison are the 8-bit orders, signed or unsigned, and equality (40_alu.md R91, decision D2). -/
theorem compareFlags_eq (signed : Bool) (va vb : Byte) :
    compareFlags signed va vb =
      { L := if signed then va.slt vb else va.ult vb
        G := if signed then vb.slt va else vb.ult va
        E := va == vb } := by
  cases signed with
  | true => simp [compareFlags, cmpValue, sval_eq_toInt, BitVec.slt_eq_decide, BitVec.toInt_inj, Bool.beq_eq_decide_eq]
  | false => simp [compareFlags, cmpValue, BitVec.ult_eq_decide, BitVec.toNat_inj, Bool.beq_eq_decide_eq]

/-- CMP at any parameters: the flags of the comparison, and the pc after it (40_alu.md R91). -/
theorem stepWith_cmp {p : Params} {s : State} (h : Fetches s 0xA7#8) :
    stepWith p s = .next (afterRegReg s fun ra rb =>
      { s with fl := compareFlags p.cmpSigned s.x[ra] s.x[rb], pc := s.pc + 3 }) :=
  have hd : decodeOpWith p.subDecodes 0xA7#8 = .ok .cmp := (decodeOpWith_of_ne (by decide) _).trans (decodeOp_opcode .cmp)
  stepWith_regReg (m := .cmp) h hd rfl rfl

/-- A two-register instruction takes the fault of its operands, or does what it does with good ones. -/
theorem afterRegReg_cases (s : State) (k : Fin 8 → Fin 8 → State) :
    (afterRegReg s k).status = .faulted ∨ ∃ ra rb, afterRegReg s k = k ra rb := by
  unfold afterRegReg
  split
  · exact .inl rfl
  · split
    · split
      · exact .inr ⟨_, _, rfl⟩
      · exact .inl rfl
    · exact .inl rfl

/-- Settles O28: the comparison's flags are the orders of the two bytes, and a next state that is running holds them. -/
theorem cmpRule : Obligations.CmpRule := by
  refine ⟨fun p s h => ?_, fun p s t h ht hrun => ?_, stepWith_default, rfl⟩
  · simp only [stepWith_cmp h, compareFlags_eq]
  · rw [stepWith_cmp h] at ht
    injection ht with ht
    subst ht
    rcases afterRegReg_cases s _ with hfault | ⟨ra, rb, hk⟩
    · exact absurd (hrun.symm.trans hfault) nofun
    · rw [hk]
      exact compareFlags_exactlyOne _ _ _

/-! ## Execution with good operands -/

/-- With good registers the two-register ALU shape writes its function's value to the first (40_alu.md R80). -/
theorem aluBinary_good {s : State} {a b v : Byte} {f : Byte → Byte → Byte} (ha : a.toNat < 8) (hb : b.toNat < 8)
    (hv : f s.x[a.toNat] s.x[b.toNat] = v) :
    aluBinary s a b f = .next { s with x := s.x.set a.toNat v, pc := s.pc + 3 } := by
  rw [aluBinary, withRegs_good s a b _ ha hb, ← hv]
  rfl

/-- MOD with good registers and a divisor that is not 0 leaves the remainder (40_alu.md R84). -/
theorem execMod_good {s : State} {a b : Byte} (ha : a.toNat < 8) (hb : b.toNat < 8) (hdiv : s.x[b.toNat] ≠ 0x00#8) :
    execMod a b s = .next { s with x := s.x.set a.toNat (s.x[a.toNat] % s.x[b.toNat]), pc := s.pc + 3 } := by
  rw [execMod, withRegs_good s a b _ ha hb, ← aluMod_eq]
  exact if_neg hdiv

/-- NOT with a good register leaves the complement (40_alu.md R88). -/
theorem execNot_good {s : State} {a : Byte} (ha : a.toNat < 8) :
    execNot a s = .next { s with x := s.x.set a.toNat (~~~ s.x[a.toNat]), pc := s.pc + 2 } := by
  rw [execNot, withReg_good s a _ ha, ← aluNot_eq]
  rfl

/-- CMP with good registers leaves the flags of their unsigned comparison (40_alu.md R91, decision D2). -/
theorem execCmp_good {s : State} {a b : Byte} {fl : Flags} (ha : a.toNat < 8) (hb : b.toNat < 8)
    (hfl : compareFlags false s.x[a.toNat] s.x[b.toNat] = fl) :
    execCmp a b s = .next { s with fl := fl, pc := s.pc + 3 } := by
  rw [execCmp, execCmpWith, withRegs_good s a b _ ha hb, ← hfl]
  rfl

/-- Settles O38: the model's numbers, narrowed, are the 8-bit operations. -/
theorem arithmeticCompletes : Obligations.ArithmeticCompletes := fun _ _ _ ha hb =>
  ⟨aluBinary_good ha hb (aluAdd_eq _ _), aluBinary_good ha hb (aluSub_eq _ _), aluBinary_good ha hb (aluMul_eq _ _),
    execMod_good ha hb⟩

/-- Settles O39: the model's numbers, narrowed, are the 8-bit shifts, and these leave 0 from the width on (decision D3). -/
theorem logicAndShiftComplete : Obligations.LogicAndShiftComplete := fun _ _ _ ha hb =>
  ⟨aluBinary_good ha hb rfl, aluBinary_good ha hb rfl, aluBinary_good ha hb rfl, execNot_good ha,
    aluBinary_good ha hb (aluShl_eq _ _), aluBinary_good ha hb (aluShr_eq _ _), fun h =>
      ⟨aluBinary_good ha hb ((aluShl_eq _ _).trans (BitVec.shiftLeft_eq_zero h)),
        aluBinary_good ha hb ((aluShr_eq _ _).trans (BitVec.ushiftRight_eq_zero h))⟩⟩

/-- Settles O40: each order of the two bytes decides the three flags of the unsigned comparison. -/
theorem compareCompletes : Obligations.CompareCompletes := by
  intro a b s ha hb
  refine ⟨fun h => execCmp_good ha hb ?_, fun h => execCmp_good ha hb ?_, fun h => execCmp_good ha hb ?_⟩
  · simp [compareFlags, cmpValue, h, h.le, h.ne]
  · simp [compareFlags, cmpValue, h, h.le, h.ne']
  · simp [compareFlags, h]

end Sys2Proof.Safety

/-! # The stack and the control flow

A step at the opcode byte of a stack or control-flow instruction, and what the instruction leaves (41_stack_control.md). Each meaning
is first read as its rule writes it, for every register operand: the step's rule and the completion with a good register are both
instances of that reading. -/

namespace Sys2Proof.Safety

open Sys2Proof.Machine

/-! ## The stack moves in the spec's terms -/

/-- The decrement of PUSH and CALL with the store at the address it leaves (41_stack_control.md R111, R113). -/
theorem decSp_storeTop_eq (s : State) (v : Byte) :
    s.decSp.storeTop v =
      { s with x := s.x.set 7 (s.x[7] - 1#8), mem := s.mem.write (s.x[7] - 1#8).toNat v } := by
  rw [State.storeTop, State.decSp_reg_sp, State.decSp, spDec_eq]
  rfl

/-- The increment of POP and RET (41_stack_control.md R112, R114). -/
theorem incSp_eq (s : State) : s.incSp = { s with x := s.x.set 7 (s.x[7] + 1#8) } := by
  rw [State.incSp, spInc_eq]
  rfl

theorem pushAddr_eq (s : State) : s.pushAddr = (s.x[7] - 1#8).toNat := congrArg BitVec.toNat (spDec_eq s.x[7])

/-- A register read after a write of SP (decision D10). -/
theorem getElem_set_seven (x : Vector Byte 8) (v : Byte) {a : Byte} (ha : a.toNat < 8) :
    (x.set 7 v)[a.toNat] = if a = 7#8 then v else x[a.toNat] := by
  simp only [Vector.getElem_set, ← BitVec.toNat_inj, eq_comm, BitVec.reduceToNat]

/-! ## The meanings as their rules write them -/

/-- PUSH reads its register after the SP write (41_stack_control.md R111, decision D10). -/
theorem exec_push (a : Byte) (s : State) :
    exec (.push a) s = withReg s a fun r => .next
      { s with x := s.x.set 7 (s.x[7] - 1#8)
               mem := s.mem.write (s.x[7] - 1#8).toNat (s.x.set 7 (s.x[7] - 1#8))[r]
               pc := s.pc + 2 } := by
  simp only [exec, execPush, decSp_storeTop_eq, State.reg, State.decSp_x, spDec_eq]
  rfl

/-- POP increments SP as it reads after the register write (41_stack_control.md R112, decision D10). -/
theorem exec_pop (a : Byte) (s : State) :
    exec (.pop a) s = withReg s a fun r => .next
      { s with x := (s.x.set r (s.mem.read s.x[7].toNat)).set 7 ((s.x.set r (s.mem.read s.x[7].toNat))[7] + 1#8)
               pc := s.pc + 2 } := by
  simp only [exec, execPop, incSp_eq]
  rfl

/-- CALL reads its target after the SP write (41_stack_control.md R113, decisions D5 and D10). -/
theorem exec_call (a : Byte) (s : State) :
    exec (.call a) s = withReg s a fun r => .next
      (if 255 < s.pc + 2 then faultedAt s .addressingReturnAddress (s.pc + 2)
      else
        { s with x := s.x.set 7 (s.x[7] - 1#8)
                 mem := s.mem.write (s.x[7] - 1#8).toNat (BitVec.ofNat 8 (s.pc + 2))
                 pc := (s.x.set 7 (s.x[7] - 1#8))[r].toNat }) := by
  simp only [exec, execCall, decSp_storeTop_eq, apply_ite Host.Outcome.next]
  rfl

theorem exec_ret (s : State) :
    exec .ret s = .next { s with x := s.x.set 7 (s.x[7] + 1#8), pc := (s.mem.read s.x[7].toNat).toNat } := by
  simp only [exec, execRet, incSp_eq]
  rfl

/-- A branch writes the pc alone, under a condition stated in any form (41_stack_control.md R115 to R117). -/
theorem branchIf_eq (s : State) (a : Byte) {taken : Bool} {c : Prop} [Decidable c] (hc : taken = true ↔ c) :
    branchIf s a taken = withReg s a fun r => .next { s with pc := if c then s.x[r].toNat else s.pc + 2 } := by
  by_cases h : c
  · simp only [branchIf, if_pos h, if_pos (hc.2 h)]
    rfl
  · simp only [branchIf, if_neg h, if_neg (mt hc.1 h)]
    rfl

/-! ## The step at the opcode byte -/

/-- The core's own step of an instruction of one register (60_exceptions.md R147, checks 2 to 5). -/
theorem step_reg {s : State} {m : Mnemonic} {k : Fin 8 → State} (h : Fetches s m.opcode) (hcount : opCount m.opcode = 1)
    (hexec : exec (m.build (operandA s) (operandB s)) s = withReg s (operandA s) fun r => .next (k r)) :
    step s = .next (afterReg s k) :=
  (stepWith_default s).symm.trans
    (stepWith_reg h (decodeOp_opcode m) hcount ((execWith_default _ s).trans hexec))

/-- What an instruction does with its register matters only where the operand byte lies in memory. -/
theorem afterReg_congr {s : State} {k k' : Fin 8 → State} (h : s.pc ≠ 255 → ∀ r, k r = k' r) :
    afterReg s k = afterReg s k' := by
  by_cases hp : s.pc = 255
  · simp only [afterReg, if_pos hp]
  · rw [funext (h hp)]

/-- Settles O29: PUSH has one register operand and no check of its own. -/
theorem pushRule : Obligations.PushRule := fun s h => step_reg (m := .push) h rfl (exec_push (operandA s) s)

/-- Settles O30: POP has one register operand and no check of its own. -/
theorem popRule : Obligations.PopRule := fun s h => step_reg (m := .pop) h rfl (exec_pop (operandA s) s)

/-- Settles O31: where the operand lies in memory, the return address is above 255 at pc 254 alone. -/
theorem callRule : Obligations.CallRule := by
  intro s h
  have hp := h.2.1
  rw [step_reg (m := .call) h rfl (exec_call (operandA s) s)]
  refine congrArg Host.Outcome.next (afterReg_congr fun hpc r => ?_)
  by_cases hlast : s.pc = 254
  · rw [if_pos (by omega), if_pos hlast, hlast]
  · rw [if_neg (by omega), if_neg hlast]

/-- Settles O32: RET has no operand byte, so its fetch cannot fail once its opcode is read. -/
theorem retRule : Obligations.RetRule := by
  intro s ⟨hr, hp, hop⟩
  rw [step_opcode (m := .ret) hr hp (congrArg decodeOp hop)]
  exact (if_neg (Nat.not_lt.2 hp)).trans (exec_ret s)

/-- Settles O33: JMP is the branch that is always taken. -/
theorem jmpRule : Obligations.JmpRule := fun s h =>
  step_reg (m := .jmp) h rfl (branchIf_eq s (operandA s) (iff_true_intro rfl))

/-- Settles O34: both branches check their register first, and are taken at one value of E each. -/
theorem conditionalBranchRules : Obligations.ConditionalBranchRules := fun s =>
  ⟨fun h => step_reg (m := .jeq) h rfl (branchIf_eq s (operandA s) Iff.rfl),
    fun h => step_reg (m := .jne) h rfl (branchIf_eq s (operandA s) (Iff.of_eq (Bool.not_eq_true' _)))⟩

/-! ## Execution with a good register -/

theorem exec_push_good {a : Byte} {s : State} (ha : a.toNat < 8) :
    exec (.push a) s = .next
      { s with x := s.x.set 7 (s.x[7] - 1#8)
               mem := s.mem.write s.pushAddr (if a = 7#8 then s.x[7] - 1#8 else s.x[a.toNat])
               pc := s.pc + 2 } := by
  rw [exec_push, withReg_good s a _ ha, pushAddr_eq, ← getElem_set_seven _ _ ha]
  rfl

/-- The two writes of POP: to the same register, the second one alone is left (decision D10). -/
theorem exec_pop_good {a : Byte} {s : State} (ha : a.toNat < 8) :
    exec (.pop a) s = .next
      { s with x := if a = 7#8 then s.x.set 7 (s.mem.read s.x[7].toNat + 1#8)
                    else (s.x.set a.toNat (s.mem.read s.x[7].toNat)).set 7 (s.x[7] + 1#8)
               pc := s.pc + 2 } := by
  rw [exec_pop, withReg_good s a _ ha]
  by_cases h : a = 7#8
  · subst h
    simp
  · have hne : a.toNat ≠ 7 := fun h7 => h (BitVec.eq_of_toNat_eq h7)
    simp only [if_neg h, Vector.getElem_set_ne _ _ hne]

theorem exec_call_good {a : Byte} {s : State} (ha : a.toNat < 8) (hp : s.pc + 2 ≤ 255) :
    exec (.call a) s = .next
      { s with x := s.x.set 7 (s.x[7] - 1#8)
               mem := s.mem.write s.pushAddr (BitVec.ofNat 8 (s.pc + 2))
               pc := (if a = 7#8 then s.x[7] - 1#8 else s.x[a.toNat]).toNat } := by
  rw [exec_call, withReg_good s a _ ha, if_neg (Nat.not_lt.2 hp), pushAddr_eq, ← getElem_set_seven _ _ ha]
  rfl

/-- Settles O41: the store is at the decremented SP, and register 7 is read after the SP write. -/
theorem stackAndCallComplete : Obligations.StackAndCallComplete := fun _ s ha =>
  ⟨exec_push_good ha, exec_pop_good ha, exec_call_good ha, exec_ret s⟩

theorem branchIf_taken {s : State} {a : Byte} {taken : Bool} (ha : a.toNat < 8) (h : taken = true) :
    branchIf s a taken = .next { s with pc := s.x[a.toNat].toNat } := by
  subst h
  exact withReg_good s a _ ha

theorem branchIf_untaken {s : State} {a : Byte} {taken : Bool} (ha : a.toNat < 8) (h : taken = false) :
    branchIf s a taken = .next { s with pc := s.pc + 2 } := by
  subst h
  exact withReg_good s a _ ha

/-- Settles O42: E decides whether JEQ and JNE are taken, each at the other value. -/
theorem jumpsComplete : Obligations.JumpsComplete := fun _ _ ha =>
  ⟨branchIf_taken ha rfl,
    fun h => ⟨branchIf_taken ha h, branchIf_untaken ha (congrArg Bool.not h)⟩,
    fun h => ⟨branchIf_untaken ha h, branchIf_taken ha (congrArg Bool.not h)⟩⟩

/-! ## The laws of the stack -/

/-- After a PUSH of a register other than SP, SP is one lower and addresses the register's value (41_stack_control.md R111). -/
theorem push_leaves {a : Byte} {s t : State} (ha : a.toNat < 7) (h : exec (.push a) s = .next t) :
    t.x[7] = s.x[7] - 1#8 ∧ t.mem.read t.x[7].toNat = s.x[a.toNat] := by
  rw [exec_push_of_lt_seven ha, decSp_storeTop_eq] at h
  injection h with h
  subst h
  simp

/-- After a POP of a register other than SP, the register holds the byte SP addressed and SP is one higher
(41_stack_control.md R112). -/
theorem pop_leaves {b : Byte} {s t : State} (hb : b.toNat < 7) (h : exec (.pop b) s = .next t) :
    t.x[b.toNat] = s.mem.read s.x[7].toNat ∧ t.x[7] = s.x[7] + 1#8 ∧ t.mem = s.mem := by
  have hne : b ≠ 7#8 := fun h7 => absurd hb (h7 ▸ by decide)
  rw [exec_pop_good (by omega), if_neg hne] at h
  injection h with h
  subst h
  refine ⟨?_, by simp, rfl⟩
  simp [Vector.getElem_set_ne, hb.ne']

/-- After a CALL that completes, SP is one lower and addresses the return address (41_stack_control.md R113). -/
theorem call_leaves {a : Byte} {s t : State} (ha : a.toNat < 8) (hp : s.pc + 2 ≤ 255) (h : exec (.call a) s = .next t) :
    t.x[7] = s.x[7] - 1#8 ∧ t.mem.read t.x[7].toNat = BitVec.ofNat 8 (s.pc + 2) := by
  rw [exec_call_good ha hp, pushAddr_eq] at h
  injection h with h
  subst h
  simp

/-- Settles O50: the POP reads the byte the PUSH stored, at the address both have SP at, and undoes its decrement. -/
theorem pushPopRoundTrip : Obligations.PushPopRoundTrip := by
  intro a b s t u ha hb hpush hpop
  obtain ⟨hsp, htop⟩ := push_leaves ha hpush
  obtain ⟨hval, hsp', hmem⟩ := pop_leaves hb hpop
  refine ⟨hval.trans htop, ?_, ?_⟩
  · rw [hsp', hsp, BitVec.sub_add_cancel]
  · rw [hmem, ← hsp, htop]

/-- Settles O51: at the ends of the address range the 8-bit decrement and increment of SP wrap. -/
theorem stackWraparound : Obligations.StackWraparound := by
  intro a s ha
  refine ⟨fun h => ?_, fun h => ?_⟩
  · obtain ⟨t, ht⟩ := exec_answers (.push a) s
    obtain ⟨hsp, htop⟩ := push_leaves ha ht
    have hsp : t.x[7] = 0xFF#8 := by rw [hsp, h]; rfl
    exact ⟨t, ht, hsp, by rwa [hsp] at htop⟩
  · obtain ⟨t, ht⟩ := exec_answers (.pop a) s
    obtain ⟨hval, hsp, -⟩ := pop_leaves ha ht
    exact ⟨t, ht, by rw [hsp, h]; rfl, by rwa [h] at hval⟩

/-- Settles O52: the RET reads the return address the CALL stored, which fits a byte, and undoes its decrement. -/
theorem callRetRoundTrip : Obligations.CallRetRoundTrip := by
  intro a s t u v ha hp hcall hsp hbyte hret
  obtain ⟨hspCall, htop⟩ := call_leaves ha (by omega) hcall
  rw [exec_ret, hbyte, htop, hsp, hspCall] at hret
  injection hret with hret
  subst hret
  exact ⟨Nat.mod_eq_of_lt (by omega), (Vector.getElem_set_self _).trans (BitVec.sub_add_cancel _ _)⟩

end Sys2Proof.Safety

/-! # The simple family and the output port

A step at the opcode byte of HLT, LDI or PRN, what the instruction leaves (42_simple.md), and the byte the output port presents
(00_scope.md R11). -/

namespace Sys2Proof.Safety

open Sys2Proof.Machine

/-! ## What a step that ends in a given way fetched -/

/-- An instruction a running core fetches stands at the pc with its opcode (70_reset_and_hazards.md R180). -/
theorem fetches_of_fetch {s : State} {i : Instr} (hr : s.status = .running) (h : fetch s = .ok i) :
    Fetches s i.mnemonic.opcode := by
  obtain ⟨m, -, hop, hpc, rfl⟩ := fetchWith_eq_ok h
  rw [mnemonic_build]
  exact ⟨hr, by omega, hop⟩

/-- Neither a fault nor an instruction other than HLT leaves a running core Halted (10_state.md R30). -/
theorem fetches_hlt_of_step_halted {s t : State} (hr : s.status = .running) (h : step s = .next t)
    (ht : t.status = .halted) : Fetches s 0x01#8 := by
  rcases step_next h with ⟨hn, _⟩ | ⟨_, f, _, rfl⟩ | ⟨_, i, hf, he⟩
  · exact absurd hr hn
  · exact absurd ht nofun
  · rcases exec_next he with ⟨c, d, _, rfl⟩ | he
    · exact absurd ht nofun
    · have hi : i = .hlt := by
        by_contra hi
        have hst := status_of_execEffect he
        rw [if_neg hi, hr, ht] at hst
        exact absurd hst nofun
      subst hi
      exact fetches_of_fetch hr hf

/-- A step in which PRN does not run to its end keeps the output (10_state.md R32, 60_exceptions.md R146). -/
theorem out_of_step_not_prn {s t : State} (h : step s = .next t) (hprn : ¬ (Fetches s 0x47#8 ∧ firstFault s = none)) :
    t.out = s.out := by
  by_cases hr : s.status = .running
  case neg =>
    rw [step_not_running s hr] at h
    injection h with h
    rw [h]
  have hstep := step_faultsOr hr
  cases hc : firstFault s with
  | some c =>
    rw [hc] at hstep
    injection h.symm.trans hstep with ht
    rw [ht, State.raise_out]
  | none =>
    rw [hc] at hstep
    obtain ⟨u, hu, i, hf, he⟩ := hstep
    injection h.symm.trans hu with ht
    subst ht
    rcases (fl_out_fault_of_execEffect he).2 with ⟨_, hout⟩ | ⟨_, _, _, _, _, _, hout⟩ | ⟨a, _, rfl, _⟩
    · exact hout
    · exact hout
    · exact absurd ⟨fetches_of_fetch hr hf, hc⟩ hprn

/-! ## The meanings as their rules write them -/

/-- LDI writes the immediate as it is (42_simple.md R131). -/
theorem exec_ldi (a imm : Byte) (s : State) :
    exec (.ldi a imm) s = withReg s a fun r => .next { s with x := s.x.set r imm, pc := s.pc + 3 } := rfl

/-- PRN appends the byte of its register (42_simple.md R132). -/
theorem exec_prn (a : Byte) (s : State) :
    exec (.prn a) s = withReg s a fun r => .next { s with out := s.out ++ [s.x[r]], pc := s.pc + 2 } := rfl

/-! ## The step at the opcode byte -/

/-- Settles O35: HLT has no operand to fail at, every event but `rst` tests for another status, and of the outcomes of a step only
HLT's effect is Halted. -/
theorem hltRule : Obligations.HltRule := by
  refine ⟨fun s h => step_of_fetches_hlt h, fun s e h he => ?_, fun s t => fetches_hlt_of_step_halted⟩
  have hidle : s.status ≠ .idle := by simp [h]
  cases e with
  | rst => exact absurd rfl he
  | load a v => exact handle_load_of_not_idle hidle a v
  | start => exact handle_start_of_not_idle hidle
  | step => exact handle_step_of_not_running (by simp [h])

/-- Settles O36: LDI has two operand bytes, of which the first alone names a register. -/
theorem ldiRule : Obligations.LdiRule := by
  intro s ⟨hr, hp, hop⟩
  have hexec := (exec_ldi (operandA s) (operandB s) s).trans (withReg_of_next s (operandA s) _)
  rw [step_opcode (m := .ldi) hr hp (congrArg decodeOp hop)]
  unfold afterRegImm
  by_cases hpc : 254 ≤ s.pc
  · rw [if_pos hpc]
    exact if_pos (show 255 < s.pc + 2 by omega)
  · rw [if_neg hpc]
    exact (if_neg (show ¬ 255 < s.pc + 2 by omega)).trans hexec

/-- Settles O37: PRN has one register operand and no check of its own. -/
theorem prnRule : Obligations.PrnRule := fun _ h => step_reg (m := .prn) h rfl (exec_prn _ _)

/-! ## Execution with a good register -/

/-- Settles O43: HLT has no operand, and LDI and PRN have no check but that of their register. -/
theorem simpleOperationsComplete : Obligations.SimpleOperationsComplete := fun a imm s ha =>
  ⟨rfl, (exec_ldi a imm s).trans (withReg_good s a _ ha), (exec_prn a s).trans (withReg_good s a _ ha)⟩

/-! ## The output port -/

/-- A step presents the first byte it appends to the output, if it appends one (42_simple.md R134). -/
theorem outData_step_of_append {s t : State} {l : List Byte} (h : step s = .next t) (hout : t.out = s.out ++ l) :
    (s.ports .step).outData = l.head? := by
  rw [ports_outData, if_pos rfl, handle_step, stepped_eq h, hout, List.drop_left]

theorem afterReg_good {s : State} (k : Fin 8 → State) (hp : s.pc ≤ 254) (ha : (operandA s).toNat < 8) :
    afterReg s k = k ⟨(operandA s).toNat, ha⟩ := by
  rw [afterReg, if_neg (by omega), dif_pos ha]

/-- Settles O56: PRN run to its end is the one step that appends to the output, and it appends its register's byte. -/
theorem outputPortPresentsPrnByte : Obligations.OutputPortPresentsPrnByte := by
  refine ⟨fun s ha h hp => ?_, fun s hprn => ?_, fun s e he => ?_⟩
  · have hstep := prnRule s h
    rw [afterReg_good _ hp ha] at hstep
    exact outData_step_of_append hstep rfl
  · have hstep := step_eq_next_handle s
    have hout := out_of_step_not_prn hstep hprn
    exact outData_step_of_append (l := []) hstep (hout.trans (List.append_nil _).symm)
  · rw [ports_outData, if_neg he]

end Sys2Proof.Safety

/-! # Faults and load errors

The faults of 60_exceptions.md: which one a step takes, that it is precise, which one an undefined opcode byte takes at any
parameters, and that a program file which is no image faults nothing. -/

namespace Sys2Proof.Safety

open Sys2Proof.Machine

/-! ## The first failed check -/

/-- An instruction that takes no fault does not leave a running core Faulted (10_state.md R30). -/
theorem not_faulted_of_execEffect {i : Instr} {s t : State} (hr : s.status = .running) (h : ExecEffect i s t) :
    t.status ≠ .faulted := by
  rw [status_of_execEffect h, hr]
  split <;> nofun

/-- Settles O8: `step_faultsOr`, where the effect of an instruction is no fault and keeps the record. -/
theorem stepReportsFirstFailedCheck : Obligations.StepReportsFirstFailedCheck := by
  intro s hr
  have h := step_faultsOr hr
  cases hc : firstFault s with
  | some c =>
    rw [hc] at h
    exact h
  | none =>
    rw [hc] at h
    obtain ⟨t, ht, i, -, he⟩ := h
    exact ⟨t, ht, not_faulted_of_execEffect hr he, (fl_out_fault_of_execEffect he).1⟩

/-- A failed check has a cause, from any pc: above 256 it is the check of the fetch (60_exceptions.md R141). -/
theorem firstFault_cause_ne_none {s : State} {c : FaultCause} {d : Nat} (h : firstFault s = some (c, d)) : c ≠ .none := by
  by_cases hp : s.pc ≤ 256
  · exact (firstFault_bounds hp h).1
  · rw [firstFault, if_pos (by omega)] at h
    cases h
    nofun

/-- Settles O9: by O8 a step that ends Faulted has a failed check, and the state after it is `faultedAt` of the first. -/
theorem faultIsPrecise : Obligations.FaultIsPrecise := by
  intro s t hr h ht
  have hstep := stepReportsFirstFailedCheck s hr
  rw [h] at hstep
  cases hc : firstFault s with
  | some c =>
    rw [hc] at hstep
    cases hstep
    exact ⟨rfl, rfl, firstFault_cause_ne_none hc, rfl⟩
  | none =>
    rw [hc] at hstep
    obtain ⟨_, hu, hnot, -⟩ := hstep
    cases hu
    exact absurd ht hnot

/-! ## Undefined opcode bytes -/

/-- The rejection of a byte of no table is its fault, whatever SUB_DECODES: SUB's byte is none of them (30_encoding.md R66). -/
theorem decodeOpWith_of_opcodeFault {op : Byte} {cause : FaultCause} (hc : opcodeFault op = some cause) (subDecodes : Bool) :
    ∃ r, decodeOpWith subDecodes op = .error r ∧ trapOfReject r = { cause := cause, detail := op.toNat } := by
  have hsub : opcodeFault 0xA1#8 = none := by decide
  have hne : op ≠ 0xA1#8 := by
    rintro rfl
    exact absurd (hsub.symm.trans hc) nofun
  rw [decodeOpWith_of_ne hne]
  rw [opcodeFault_eq_rejectCause] at hc
  cases hd : decodeOp op with
  | ok m =>
    rw [hd] at hc
    cases hc
  | error r =>
    rw [hd] at hc
    cases hc
    exact ⟨r, rfl, by rw [← trapOfReject_detail hd]⟩

/-- An undefined opcode byte takes its fault at any parameters (60_exceptions.md R142, R143). -/
theorem stepWith_of_fetches_undefined {s : State} {op : Byte} {cause : FaultCause} (h : Fetches s op)
    (hc : opcodeFault op = some cause) (p : Params) : stepWith p s = .next (faultedAt s cause op.toNat) := by
  obtain ⟨hr, hp, rfl⟩ := h
  have ⟨r, hd, htrap⟩ := decodeOpWith_of_opcodeFault hc p.subDecodes
  simp only [stepWith, if_pos hr, fetchWith_reject hp hd, htrap]
  rfl

/-! The class of a byte, by `op[5:4]`, and its table (30_encoding.md R64, R66). -/

theorem opcodeFault_of_setsPc {op : Byte} (h4 : op.getLsbD 4 = true) :
    opcodeFault op = if op ∈ controlFlowBytes then none else some .decodeError :=
  if_pos h4

theorem opcodeFault_of_alu {op : Byte} (h4 : op.getLsbD 4 = false) (h5 : op.getLsbD 5 = true) :
    opcodeFault op = if op ∈ aluBytes then none else some .unsupportedAluOp :=
  (if_neg (ne_true_of_eq_false h4)).trans (if_pos h5)

theorem opcodeFault_of_simple {op : Byte} (h4 : op.getLsbD 4 = false) (h5 : op.getLsbD 5 = false) :
    opcodeFault op = if op ∈ simpleBytes then none else some .decodeError :=
  (if_neg (ne_true_of_eq_false h4)).trans (if_neg (ne_true_of_eq_false h5))

/-- Settles O7: each class of `op[5:4]` has its own table and cause in `opcodeFault`, and 0xA1 without SUB_DECODES is a clause of
SUB's rule. -/
theorem undefinedOpcodeFaults : Obligations.UndefinedOpcodeFaults := by
  refine ⟨fun p s op h h4 hop => ?_, fun p s op h h4 h5 hop => ?_, fun p s op h h4 h5 hop => ?_, stepWith_default⟩
  · exact stepWith_of_fetches_undefined h ((opcodeFault_of_setsPc h4).trans (if_neg hop)) p
  · exact stepWith_of_fetches_undefined h ((opcodeFault_of_simple h4 h5).trans (if_neg hop)) p
  · rcases hop with hop | ⟨rfl, hsub⟩
    · exact stepWith_of_fetches_undefined h ((opcodeFault_of_alu h4 h5).trans (if_neg hop)) p
    · have hstep := subRule.1 p s h
      rwa [if_neg (ne_true_of_eq_false hsub)] at hstep

/-! ## Load errors -/

/-- A program file that is no image leaves the core as reset left it (60_exceptions.md R149). -/
theorem boot_of_error {file : Option (List (List Char))} {e : LoadError} (h : parseImage file = .error e) :
    boot file = (State.reset, some e) := by
  simp only [boot, h]

/-- Lines that all give their bytes are an image when they fit in memory (30_encoding.md R75, decision D22). -/
theorem parseImage_of_lines {lines : List (List Char)} {img : List Byte} (h : parseImageLines lines = .ok img) :
    parseImage (some lines) = if img.length ≤ Config.memSize then .ok img else .error .imageTooLong := by
  simp only [parseImage, h]

/-- Settles O18: the reset state is Idle with no fault, and the length is checked once the lines are read. -/
theorem loadErrorLeavesCoreIdle : Obligations.LoadErrorLeavesCoreIdle := by
  refine ⟨fun file e h => ?_, rfl, fun lines img h hlen => ?_⟩
  · rw [boot_of_error h]
    exact ⟨rfl, rfl, rfl⟩
  · exact (parseImage_of_lines h).trans (if_neg (Nat.not_le.2 hlen))

end Sys2Proof.Safety

/-! # Launch, runs and the fetched instruction

The launch state and the harness of 70_reset_and_hazards.md, and that the decoder's reading of the bytes at the pc is the
instruction a step executes. -/

namespace Sys2Proof.Safety

open Sys2Proof.Machine

/-! ## Start -/

/-- Settles O16: `start` tests the status, and a load that fails leaves the reset state, which is Idle. -/
theorem startOnlyFromIdle : Obligations.StartOnlyFromIdle :=
  fun _ => ⟨handle_start_of_idle, handle_start_of_not_idle, fun file e h => (loadErrorLeavesCoreIdle.1 file e h).2.1⟩

/-! ## Placed bytes -/

theorem read_place_of_lt (bytes : List Byte) (m : Memory) {a b : Nat} (h : b < a) : (m.place a bytes).read b = m.read b := by
  induction bytes generalizing m a with
  | nil => rfl
  | cons v rest ih =>
    rw [Memory.place, ih _ (by omega)]
    split
    · exact Memory.read_write_other m a b v (by omega)
    · rfl

/-- From the address of the first byte on: the bytes placed, and what was there above them (70_reset_and_hazards.md R173). -/
theorem read_place_add (bytes : List Byte) (m : Memory) {a : Nat} (h : a + bytes.length ≤ 256) (i : Nat) :
    (m.place a bytes).read (a + i) = bytes[i]?.getD (m.read (a + i)) := by
  induction bytes generalizing m a i with
  | nil => rfl
  | cons v rest ih =>
    rw [List.length_cons] at h
    have ha : a < Config.memSize := Nat.lt_of_lt_of_le (by omega) h
    rw [Memory.place, if_pos ha]
    cases i with
    | zero => exact (read_place_of_lt rest _ (Nat.lt_succ_self a)).trans (Memory.read_write_self m a v)
    | succ i =>
      have haddr : a + (i + 1) = a + 1 + i := by omega
      rw [haddr, ih _ (by omega), Memory.read_write_other m a _ v (by omega), List.getElem?_cons_succ]

/-! ## The launch state -/

/-- A load while Idle places its bytes in memory and changes nothing else: no address wraps (70_reset_and_hazards.md R173). -/
theorem loadFrom_of_idle (img : List Byte) {s : State} {a : Nat} (hs : s.status = .idle) (h : a + img.length ≤ 256) :
    s.loadFrom a img = { s with mem := s.mem.place a img } := by
  induction img generalizing s a with
  | nil => rfl
  | cons v rest ih =>
    rw [List.length_cons] at h
    have ha : a < Config.memSize := Nat.lt_of_lt_of_le (by omega) h
    have haddr : (BitVec.ofNat 8 a).toNat = a :=
      (BitVec.toNat_ofNat a 8).trans (Nat.mod_eq_of_lt ha)
    have hload : s.loadByte (BitVec.ofNat 8 a) v = { s with mem := s.mem.write a v } := by
      rw [State.loadByte, if_pos hs, State.store, haddr]
    have hrest := ih (s := { s with mem := s.mem.write a v }) (a := a + 1) hs (by omega)
    rw [State.loadFrom, hload, hrest, Memory.place, if_pos ha]

/-- The launch state is the reset state with the image placed from address 0, and Running (70_reset_and_hazards.md R175). -/
theorem launch_eq {img : List Byte} (h : img.length ≤ 256) :
    launch img = { State.reset with mem := State.reset.mem.place 0 img, status := .running } := by
  rw [launch, State.loadImage, loadFrom_of_idle img rfl (by omega)]
  rfl

theorem launch_read {img : List Byte} (h : img.length ≤ 256) (i : Nat) : (launch img).mem.read i = img[i]?.getD 0x00#8 := by
  have hread := read_place_add img State.reset.mem (a := 0) (by omega) i
  rw [Nat.zero_add] at hread
  rw [launch_eq h]
  exact hread

/-- Settles O17: memory is the image placed in the reset memory, and the rest is as at reset but Running. -/
theorem launchState : Obligations.LaunchState := by
  intro img h
  refine ⟨fun i hi => ?_, fun i hi => ?_, ?_⟩
  · rw [launch_read h, List.getElem?_eq_getElem hi, Option.getD_some]
  · rw [launch_read h, List.getElem?_eq_none hi, Option.getD_none]
  · rw [launch_eq h]
    exact ⟨Memory.place_wf img _ 0 State.reset_mem_wf, rfl, rfl, rfl, rfl, rfl, rfl⟩

/-! ## The harness -/

theorem stepsWith_not_running {p : Params} {s : State} (h : s.status ≠ .running) (k : Nat) : s.stepsWith p k = s := by
  induction k with
  | zero => rfl
  | succ k ih => rw [stepsWith_succ, steppedWith_not_running h, ih]

/-- The harness answers by the state after the steps its ceiling allows: one that stopped early is kept by the steps left
(70_reset_and_hazards.md R182). -/
theorem harnessWith_eq (p : Params) (k : Nat) (s : State) :
    harnessWith p k s =
      if (s.stepsWith p k).status = .running then .budgetExceeded (s.stepsWith p k) else .stopped (s.stepsWith p k) := by
  induction k generalizing s with
  | zero => rfl
  | succ k ih =>
    by_cases h : s.status = .running
    · rw [harnessWith, if_pos h, ih, stepsWith_succ]
    · rw [harnessWith, if_neg h, stepsWith_not_running h, if_neg h]

/-- Settles O20: `harnessWith_eq`, and the core's own harness and steps are those at its parameters. -/
theorem harnessCeiling : Obligations.HarnessCeiling := by
  refine ⟨harnessWith_eq, stepsWith_zero, fun p k s t h => ?_, fun p s k h => ?_, fun p s h => ?_,
    harnessWith_eq Config.params, fun k s t h => ⟨rfl, ?_⟩⟩
  · rw [stepsWith_succ, steppedWith_eq h]
  · rw [harnessAt, h, Option.map_some]
  · rw [harnessAt, h, Option.map_none]
  · exact congrArg (State.steps · k) (stepped_eq h)

/-! ## The bytes at the pc -/

/-- The bytes at the pc are the opcode and the two operand bytes, cut at the last cell (30_encoding.md R67). -/
theorem bytesAtPc_eq_take (s : State) : bytesAtPc s = [opcodeAt s, operandA s, operandB s].take (256 - s.pc) := by
  unfold bytesAtPc
  obtain h | h | h | h : s.pc ≤ 253 ∨ s.pc = 254 ∨ s.pc = 255 ∨ 256 ≤ s.pc := by omega
  · rw [List.take_of_length_le (by simp only [List.length_cons, List.length_nil]; omega),
      List.filter_eq_self.2 (by simp; omega)]
    rfl
  · simp [h, opcodeAt, operandA]
  · simp [h, opcodeAt]
  · rw [Nat.sub_eq_zero_of_le h, List.filter_eq_nil_iff.2 (by simp; omega)]
    rfl

/-- What a decoder reads of two operand bytes cut short: there are as many as it counts, and what it builds is built from the
two, an operand it does not count being unused. -/
theorem build_of_takeOperands {m : Mnemonic} {a b a' b' : Byte} {k : Nat} {rest : List Byte}
    (h : takeOperands (opCount m.opcode) ([a, b].take k) = some (a', b', rest)) :
    opCount m.opcode ≤ k ∧ m.build a' b' = m.build a b := by
  have hcount := opCount_opcode_le m
  have hk : opCount m.opcode ≤ k := by
    have hlen := congrArg List.length (counted_of_takeOperands h)
    simp only [List.length_append, List.length_take, List.length_cons, List.length_nil] at hlen
    omega
  refine ⟨hk, ?_⟩
  rw [← List.take_append_drop (opCount m.opcode) ([a, b].take k), List.take_take, Nat.min_eq_left hk,
    takeOperands_counted hcount] at h
  cases h
  exact build_counted m a b

/-- The fetch answers what the decoder reads off the bytes at the pc (70_reset_and_hazards.md R180). -/
theorem fetch_of_decode_bytesAtPc {s : State} {i : Instr} {rest : List Byte} (h : decode (bytesAtPc s) = .ok (i, rest)) :
    fetch s = .ok i := by
  obtain ⟨m, operands, a, b, hbytes, htake, rfl⟩ := decode_eq_ok h
  rw [bytesAtPc_eq_take] at hbytes
  obtain ⟨k, hk⟩ : ∃ k, 256 - s.pc = k + 1 := by
    refine Nat.exists_eq_succ_of_ne_zero fun h0 => ?_
    rw [h0] at hbytes
    cases hbytes
  rw [hk, List.take_succ_cons, List.cons.injEq] at hbytes
  obtain ⟨hop, rfl⟩ := hbytes
  obtain ⟨hle, hbuild⟩ := build_of_takeOperands htake
  have hdec : decodeOpWith Config.params.subDecodes (s.mem.read s.pc) = .ok m :=
    (congrArg decodeOp hop).trans (decodeOp_opcode m)
  rw [fetch, fetchWith_ok hdec (by omega), hbuild]
  rfl

/-- Settles O6: the fetch answers the instruction decoded, and the step is its execution. -/
theorem stepRunsDecodedInstruction : Obligations.StepRunsDecodedInstruction :=
  fun _ _ _ hr h => step_fetch_ok hr (fetch_of_decode_bytesAtPc h)

end Sys2Proof.Safety
